-- ==== Sys2Proof/Word.lean ====
section
/-! DEFINITION. The widths of the hardware (R8): a register word, a 32-bit value, a command word and a response word. -/

namespace Sys2Proof

/-- A register word: 16 bits, unsigned (R8 `WORD_W`). -/
abbrev Word := BitVec 16

/-- A 32-bit value: an integer's two's-complement pattern or a binary32 pattern (R8 `VALUE_W`, R2). -/
abbrev Val32 := BitVec 32

/-- The command word `CW[41:0] = op :: len :: payload` (R71). -/
abbrev CmdWord := BitVec 42

/-- The response word `RW[32:0] = err :: payload` (R76). -/
abbrev RspWord := BitVec 33

end Sys2Proof
end

