-- ==== Sys2Proof/Syntax.lean ====
section
/-! DEFINITION. The instruction set (R70): four instructions, each a command with the fields of the one command format (R71). -/

namespace Sys2Proof

/-- One constructor per row of the opcode table (R70, R77). `len` is `cmd.len`, the length of the requester's word sequence;
`payload` is `cmd.payload` (R71): the value of an encode (R74), the words `w0 :: w1` of a decode (R75). Every value of every
field is legal (R78). -/
inductive Instr where
  | encI32 (len : BitVec 8) (payload : Val32)
  | encF32 (len : BitVec 8) (payload : Val32)
  | decI32 (len : BitVec 8) (payload : Val32)
  | decF32 (len : BitVec 8) (payload : Val32)
  deriving DecidableEq, Repr

end Sys2Proof
end

