-- ==== Sys2Proof/Decode.lean ====
section
/-! DEFINITION. Decoding a command word into an instruction, and the encoder back (R71, R72, R77). -/

namespace Sys2Proof

/-- `CW[41:40]`, the operation code (R71). -/
def cmdOp (cw : CmdWord) : BitVec 2 := cw.extractLsb' 40 2

/-- `CW[39:32]`, the length field (R71). -/
def cmdLen (cw : CmdWord) : BitVec 8 := cw.extractLsb' 32 8

/-- `CW[31:0]`, the payload (R71). -/
def cmdPayload (cw : CmdWord) : Val32 := cw.extractLsb' 0 32

/-- The instruction a command word selects (R72, R77). Total: all four operation codes are assigned (R78). -/
def decode (cw : CmdWord) : Instr :=
  match (cmdOp cw).toNat with
  | 0 => .encI32 (cmdLen cw) (cmdPayload cw)
  | 1 => .encF32 (cmdLen cw) (cmdPayload cw)
  | 2 => .decI32 (cmdLen cw) (cmdPayload cw)
  | _ => .decF32 (cmdLen cw) (cmdPayload cw)

/-- Why a string of bits is no command. The one reason is that it is not a 42-bit word: no command word is illegal (R78). -/
inductive DecodeError where
  /-- A bit above bit 41 is set, so the bits are no command word (R71). -/
  | notACommandWord
  deriving DecidableEq, Repr

/-- Decoding of any bits, given as a number whose bit 0 is bit 0 of the command word. -/
def decodeBits (w : Nat) : Except DecodeError Instr :=
  if w < 2 ^ 42 then .ok (decode (BitVec.ofNat 42 w)) else .error .notACommandWord

/-- The operation code of an instruction (R72): bit 1 says decode, bit 0 says float. -/
def Instr.op : Instr → BitVec 2
  | .encI32 _ _ => 0b00#2
  | .encF32 _ _ => 0b01#2
  | .decI32 _ _ => 0b10#2
  | .decF32 _ _ => 0b11#2

/-- The field `len` of an instruction (R71, R73). -/
def Instr.len : Instr → BitVec 8
  | .encI32 len _ => len
  | .encF32 len _ => len
  | .decI32 len _ => len
  | .decF32 len _ => len

/-- The field `payload` of an instruction (R71, R74, R75). -/
def Instr.payload : Instr → Val32
  | .encI32 _ payload => payload
  | .encF32 _ payload => payload
  | .decI32 _ payload => payload
  | .decF32 _ payload => payload

/-- The command word of an instruction: `op :: len :: payload` (R71). -/
def encode (i : Instr) : CmdWord := i.op ++ i.len ++ i.payload

/-- A row of the opcode map (R77): an instruction is selected when `CW AND mask = match`. -/
structure OpcodeRow where
  mask : CmdWord
  pattern : CmdWord
  deriving DecidableEq, Repr

/-- The opcode map of R77, in the table's order: `ENCI32`, `ENCF32`, `DECI32`, `DECF32`. -/
def opcodeMap : List OpcodeRow :=
  [ ⟨0x30000000000#42, 0x00000000000#42⟩,
    ⟨0x30000000000#42, 0x10000000000#42⟩,
    ⟨0x30000000000#42, 0x20000000000#42⟩,
    ⟨0x30000000000#42, 0x30000000000#42⟩ ]

/-- Whether a row selects a command word (R77). -/
def OpcodeRow.selects (r : OpcodeRow) (cw : CmdWord) : Bool := (cw &&& r.mask) == r.pattern

/-- The host's reading of the decoder: the instruction whose bits are `w`, bit 0 the least significant bit of the command
word. A command is 42 bits whatever the number of whole bytes it is carried in, so `nbits` selects nothing. -/
def decodeTableWord (_nbits w : Nat) : Option Instr :=
  match decodeBits w with
  | .ok i => some i
  | .error _ => none

end Sys2Proof
end

