-- ==== Sys2Proof/Config.lean ====
section
/-! DEFINITION. What an implementation fixes (the parameters of R8), the four banks, and the free values: opaque constants
with no body, for what the spec leaves open. -/

namespace Sys2Proof

/-- The four banks, in the source's order (R26): discrete-inputs, coils, holding-registers, input-registers. -/
inductive Bank where
  | di | co | hr | ir
  deriving DecidableEq, Repr

/-- `BANK_ATOMICITY` (R47, R48). `pair` and `full` are the values the spec permits; `word` is the reference behaviour
of R49, kept so that the torn pair can be shown, and never a permitted value of the parameter. -/
inductive Atomicity where
  | pair | full | word
  deriving DecidableEq, Repr

/-- The permitted values of the parameter (R48, R49, conflict C2). -/
def Atomicity.conforming : Atomicity → Bool
  | .pair => true
  | .full => true
  | .word => false

/-- `BANK_CAPACITY` of the reference deployment (R8, R26). -/
def Config.referenceCapacity : Nat := 100

/-- The bounds the parameter `BANK_CAPACITY` must satisfy (R8). -/
def Config.capacityAllowed (n : Nat) : Bool := decide (13 ≤ n ∧ n ≤ 255)

/-- Free value (log 3). `BANK_INIT`: what a word of a bank holds after reset, where the run's own parameter does not fix it
(R34, R151). The spec constrains it in no way. -/
opaque Config.bankInit : Bank → Nat → Word

/-- Free value (log 1). The turn that follows when the schedule in State has run out: which requester, which unit of its
invocation (R50, R53 leave both open). Drawn at State's counter. -/
opaque Config.freeTurn : Nat → Nat × Nat

/-- Free value (log 11). The payload bits a requester leaves on the port when it presents fewer than two words to a decode
(R75, U11): they are not examined. Drawn at State's counter. -/
opaque Config.unexamined : Nat → Val32

/-- Free value (log 13). The complement a client writes for a control flag word that is neither 0 nor 1; R118 gives only
0 to 1 and 1 to 0. -/
opaque Config.flagComplement : Word → Word

/-- Free value (log 22). Whether a snapshot is in control for a flag word in `IR[0]` that is neither 0 nor 1; R30 and R117 give
only 0, LOCAL, and 1, EXTERNAL. -/
opaque Config.flagInControl : Word → Bool

end Sys2Proof
end

