-- ==== Sys2Proof/Machine/Program.lean ====
section
/-! DEFINITION. The language a requester's program is written in: the lines of the spec's assembler syntax (R80) with the two
bank primitives (R41, R42), and the pseudo-instructions (R81). What a requester computes between its commands is outside the
block (R5, R82); the two forms `flagNot` and `skipIfZero` are only what the sequences of R118 and R119 need (log 12). -/

namespace Sys2Proof.Machine

/-- A name bound by an earlier `=>` (R80). -/
abbrev Name := Nat

/-- The kind of a 32-bit value (R29, R30): which of the two encodes or decodes applies. -/
inductive ValueKind where
  | int32 | float32
  deriving DecidableEq, Repr

/-- An operand of one 16-bit word. -/
inductive WordOperand where
  /-- A literal word. -/
  | lit (w : Word)
  /-- `x[k]`: word `k` of the sequence bound to `x`, counting from 0 (R12). -/
  | elem (x : Name) (k : Nat)
  /-- The complement `0 <-> 1` of the flag word `x[k]`, as `toggleControl` computes it (R118). -/
  | flagNot (x : Name) (k : Nat)
  deriving DecidableEq, Repr

/-- An operand of 32 bits: a literal, or a name bound to a 32-bit value (R80). -/
inductive ValOperand where
  | lit (v : Val32)
  | name (x : Name)
  deriving DecidableEq, Repr

/-- One line of a requester's program. -/
inductive Line where
  /-- A command word presented as it is (R71). -/
  | command (cw : CmdWord) (dest : Name)
  /-- `ENCI32 v => dest` or `ENCF32 v => dest`: `dest` is bound to the sequence `[hi, lo]` (R80, R90, R91). -/
  | enc (k : ValueKind) (v : ValOperand) (dest : Name)
  /-- `DECI32 len, w0, w1 => dest` or `DECF32 len, w0, w1 => dest` (R80, R100, R101). -/
  | dec (k : ValueKind) (len : BitVec 8) (w0 w1 : WordOperand) (dest : Name)
  /-- A decode of the whole word sequence bound to `x`, whatever its length (R73, R75, R120 (a)). -/
  | decSeq (k : ValueKind) (x : Name) (dest : Name)
  /-- `MemRead(B, a, n) => dest` (R41). -/
  | memRead (b : Bank) (a n : Nat) (dest : Name)
  /-- `MemWrite(B, a, ws)` (R42). -/
  | memWrite (b : Bank) (a : Nat) (ws : List WordOperand)
  /-- The requester leaves out its next `n` lines when the word is 0 (R119). -/
  | skipIfZero (c : WordOperand) (n : Nat)
  deriving DecidableEq, Repr

/-- The pseudo-instructions (R81). -/
inductive Pseudo where
  | sti32 (b : Bank) (a : Nat) (v : ValOperand)
  | stf32 (b : Bank) (a : Nat) (v : ValOperand)
  | ldi32 (b : Bank) (a : Nat) (dest : Name)
  | ldf32 (b : Bank) (a : Nat) (dest : Name)
  | stw (b : Bank) (a : Nat) (w : WordOperand)
  | ldw (b : Bank) (a : Nat) (dest : Name)
  deriving DecidableEq, Repr

/-- The expansion of a pseudo-instruction: one bank invocation and at most one codec instruction, the words in the order hi,
lo (R81, R110 to R114). `tmp` is the name the expansion uses for the word pair. `LDW` binds its name to the sequence of one
word it read. -/
def Pseudo.expand (tmp : Name) : Pseudo → List Line
  | .sti32 b a v => [.enc .int32 v tmp, .memWrite b a [.elem tmp 0, .elem tmp 1]]
  | .stf32 b a v => [.enc .float32 v tmp, .memWrite b a [.elem tmp 0, .elem tmp 1]]
  | .ldi32 b a dest => [.memRead b a 2 tmp, .dec .int32 2 (.elem tmp 0) (.elem tmp 1) dest]
  | .ldf32 b a dest => [.memRead b a 2 tmp, .dec .float32 2 (.elem tmp 0) (.elem tmp 1) dest]
  | .stw b a w => [.memWrite b a [w]]
  | .ldw b a dest => [.memRead b a 1 dest]

end Sys2Proof.Machine
end

