-- ==== Sys2Proof/Machine/State.lean ====
section
/-! DEFINITION. The state of the machine as plain data: the Register Bank (R26), the requesters (R7), the parameters (R8), and
the schedule. The codec unit holds no state (R20), so nothing here is its own. -/

namespace Sys2Proof.Machine

/-- One word of a bank at an address. The bank is word-addressed and has no byte (R40, R45; log 2). -/
abbrev WordCell := Nat × Word

/-- The words listed for the four banks (R26). A word that is not listed reads as the bank's initial word (R34). -/
structure Memory where
  di : List WordCell
  co : List WordCell
  hr : List WordCell
  ir : List WordCell
  deriving DecidableEq, Repr

/-- No word listed in any bank. -/
def Memory.empty : Memory := { di := [], co := [], hr := [], ir := [] }

/-- The parameters of R8 that a run fixes. `bankInit` lists the words of `BANK_INIT` that the run fixes; every other word of
`BANK_INIT` is the free value `Config.bankInit` (log 3). -/
structure Params where
  capacity : Nat
  atomicity : Atomicity
  bankInit : Memory
  deriving DecidableEq, Repr

/-- The two causes of failure (R132). -/
inductive Cause where
  | formatError | addressInvalid
  deriving DecidableEq, Repr

/-- A response of the codec unit (R76): a 32-bit result, or FormatError with no payload. -/
inductive Response where
  | ok (payload : Val32)
  | formatError
  deriving DecidableEq, Repr

/-- What a requester is given back: a codec response, the words of a `MemRead`, or the refusal of a bank request (R133, R161). -/
inductive Returned where
  | response (r : Response)
  | words (ws : List Word)
  | addressInvalid
  deriving DecidableEq, Repr

/-- What a name can be bound to: a word sequence or a 32-bit value (R12, R80). -/
inductive Value where
  | words (ws : List Word)
  | val (v : Val32)
  deriving DecidableEq, Repr

/-- What an invocation does: a read with the words taken so far, by address, or a write with the words to store. -/
inductive Access where
  | read (got : List WordCell)
  | write (cells : List WordCell)
  deriving DecidableEq, Repr

/-- An invocation with units left to perform (R47): `pending` lists the addresses of each unit not yet performed. -/
structure Invocation where
  bank : Bank
  pending : List (List Nat)
  access : Access
  deriving DecidableEq, Repr

/-- Which requester this is (R7, R142): `TICK`, `SERVE`, or another. -/
inductive Role where
  | tick | serve | other (n : Nat)
  deriving DecidableEq, Repr

/-- A requester (R7): its program, the names it has bound, the answer it waits for, what it was given, and its fault (R137). -/
structure Requester where
  role : Role
  program : List Line
  names : List (Name × Value)
  dest : Name
  inFlight : Option Invocation
  returned : List Returned
  fault : Option Cause
  deriving DecidableEq, Repr

/-- A requester with nothing to do. -/
def Requester.idle (role : Role) : Requester :=
  { role := role, program := [], names := [], dest := 0, inFlight := none, returned := [], fault := none }

/-- One turn of the schedule: which of the requesters that can move, and which of its invocation's units (log 1). -/
structure Turn where
  who : Nat
  unit : Nat
  deriving DecidableEq, Repr

/-- The whole machine. -/
structure State where
  /-- The parameters (R8); no step changes them. -/
  params : Params
  /-- The Register Bank (R26). -/
  memory : Memory
  /-- The requesters (R7). -/
  requesters : List Requester
  /-- The requester whose command stands at the ports of the codec unit (R6; log 20). -/
  issuer : Nat
  /-- The turns to come (log 1). -/
  turns : List Turn
  /-- How many free values have been drawn (log 1). -/
  draws : Nat
  deriving DecidableEq, Repr

/-- Why the machine stops with a fault. -/
inductive Fault where
  /-- Raised by the operands of a requester's line (`evalWord`, `evalVal`, `evalSeq`) when the line uses a name or a word that
  no earlier line bound: such a text is no program of R80. Safe: the machine stops where nothing is described (log 12). -/
  | unboundOperand (x : Name)
  deriving DecidableEq, Repr

/-- Why the machine refuses an instruction. -/
inductive Refusal where
  /-- Raised only by an arm of `exec` whose instruction has no meaning yet; no arm is left that raises it. Safe. -/
  | notModelled (mnemonic : String)
  deriving DecidableEq, Repr

/-- The outcome of a step or of an instruction. -/
abbrev Result := Host.Outcome State Fault Refusal

/-- The machine right after reset: the banks hold `BANK_INIT` (R151), the capacity and the atomicity are the spec's defaults
(R8), the station's two requesters exist and have no program yet (R142; log 7), and nothing has been returned. -/
def State.reset : State :=
  { params := { capacity := Config.referenceCapacity, atomicity := .pair, bankInit := Memory.empty },
    memory := Memory.empty,
    requesters := [Requester.idle .tick, Requester.idle .serve],
    issuer := 0,
    turns := [],
    draws := 0 }

end Sys2Proof.Machine
end

