-- ==== Sys2Proof/Machine/Operands.lean ====
section
/-! DEFINITION. Slices and readings of a vector (R9, R10), the pair layout (R44), and how every operand of a command is formed:
integers (R11), word sequences (R73, R75) and the operands of a requester's line (R80). -/

namespace Sys2Proof.Machine

/-! ### Readings and widenings (R10) -/

/-- `u(v)`, the unsigned reading (R10). -/
def unsignedReading {n : Nat} (v : BitVec n) : Nat := v.toNat

/-- `s(v)`, the two's-complement reading (R10): `u(v)`, less `2^n` when the top bit is set. -/
def signedReading {n : Nat} (v : BitVec n) : Int :=
  if v.msb then (v.toNat : Int) - (2 : Int) ^ n else (v.toNat : Int)

/-- `zext_M(v)` (R10). No rule of the codec uses it. -/
def zext {n : Nat} (m : Nat) (v : BitVec n) : BitVec m := v.setWidth m

/-- `sext_M(v)` (R10). No rule of the codec uses it. -/
def sext {n : Nat} (m : Nat) (v : BitVec n) : BitVec m := v.signExtend m

/-! ### The pair layout (R28, R44) -/

/-- `p[31:16]`, the word at the lower address. -/
def hiWord (p : Val32) : Word := p.extractLsb' 16 16

/-- `p[15:0]`, the word at the next address. -/
def loWord (p : Val32) : Word := p.extractLsb' 0 16

/-- `w0 :: w1`: the first word is the most significant (R44). -/
def joinWords (w0 w1 : Word) : Val32 := w0 ++ w1

/-- A value as a word sequence, most significant word first (R12, R44). -/
def wordsOf (p : Val32) : List Word := [hiWord p, loWord p]

/-- The byte-serial picture of a value, the high byte of the hi word first (R45). Nothing in the machine moves a byte. -/
def bytesOf (p : Val32) : List (BitVec 8) :=
  [p.extractLsb' 24 8, p.extractLsb' 16 8, p.extractLsb' 8 8, p.extractLsb' 0 8]

/-! ### The operand boundary of an encode (R11, R95) -/

/-- `pat32(i)`: the 32-bit pattern of an integer from `-2^31` to `2^32 - 1`. An integer outside cannot be presented to the
block and has none (R11, R95; log 16). -/
def pat32 (i : Int) : Option Val32 :=
  if -(2 : Int) ^ 31 ≤ i ∧ i ≤ 2 ^ 32 - 1 then some (BitVec.ofInt 32 i) else none

/-- The encode command of a kind, as the assembler forms it: `len = 0` (R80). -/
def encCommand (k : ValueKind) (v : Val32) : Instr :=
  match k with
  | .int32 => .encI32 0 v
  | .float32 => .encF32 0 v

/-! ### The operands of a decode (R73, R75) -/

/-- `len = min(|words|, 255)` (R73). -/
def lenField (n : Nat) : BitVec 8 := BitVec.ofNat 8 (min n 255)

/-- `payload = w0 :: w1` of a sequence's first two words. Where the sequence has fewer, the missing words' bits are left at
`rest`, which the unit does not examine (R75). -/
def seqPayload (rest : Val32) : List Word → Val32
  | [] => rest
  | [w0] => joinWords w0 (loWord rest)
  | w0 :: w1 :: _ => joinWords w0 w1

/-- The decode command of a kind (R72). -/
def decCommand (k : ValueKind) (len : BitVec 8) (payload : Val32) : Instr :=
  match k with
  | .int32 => .decI32 len payload
  | .float32 => .decF32 len payload

/-- The decode command that presents a whole word sequence (R73, R75). -/
def presentSeq (k : ValueKind) (rest : Val32) (ws : List Word) : Instr :=
  decCommand k (lenField ws.length) (seqPayload rest ws)

/-! ### The operands of a requester's line (R80) -/

/-- The latest binding of a name. -/
def lookupName (x : Name) : List (Name × Value) → Option Value
  | [] => none
  | (y, v) :: rest => if x = y then some v else lookupName x rest

/-- The complement of a flag word: 0 and 1 are exchanged (R118). What it is of any other word is a free value (log 13). -/
def flagComplement (w : Word) : Word :=
  if w = 0 then 1 else if w = 1 then 0 else Config.flagComplement w

/-- Word `k` of the sequence bound to `x`. -/
def evalElem (names : List (Name × Value)) (x : Name) (k : Nat) : Except Name Word :=
  match lookupName x names with
  | some (.words ws) =>
    match ws[k]? with
    | some w => .ok w
    | none => .error x
  | _ => .error x

/-- A word operand; an error names what is not bound. -/
def evalWord (names : List (Name × Value)) : WordOperand → Except Name Word
  | .lit w => .ok w
  | .elem x k => evalElem names x k
  | .flagNot x k =>
    match evalElem names x k with
    | .ok w => .ok (flagComplement w)
    | .error y => .error y

/-- A 32-bit operand. -/
def evalVal (names : List (Name × Value)) : ValOperand → Except Name Val32
  | .lit v => .ok v
  | .name x =>
    match lookupName x names with
    | some (.val v) => .ok v
    | _ => .error x

/-- A whole sequence. -/
def evalSeq (names : List (Name × Value)) (x : Name) : Except Name (List Word) :=
  match lookupName x names with
  | some (.words ws) => .ok ws
  | _ => .error x

/-- The words of a `MemWrite`, in order. -/
def evalWords (names : List (Name × Value)) : List WordOperand → Except Name (List Word)
  | [] => .ok []
  | o :: os =>
    match evalWord names o, evalWords names os with
    | .ok w, .ok ws => .ok (w :: ws)
    | .error x, _ => .error x
    | .ok _, .error x => .error x

end Sys2Proof.Machine
end

