-- ==== Sys2Proof/Machine/Flags.lean ====
section
/-! DEFINITION. The only status the unit produces: `rsp.err`, part of one response (R23). There is no stored flag. -/

namespace Sys2Proof.Machine

/-- `rsp.err` of a decode: 1 exactly when `cmd.len` is not 2 (R102). -/
def lengthErr (len : BitVec 8) : BitVec 1 := if len = 2 then 0 else 1

/-- `rsp.err` of a response (R76). -/
def Response.err : Response → BitVec 1
  | .ok _ => 0
  | .formatError => 1

/-- The response word, where the response has one: a failing response has no payload and so no word (R76). -/
def Response.word : Response → Option RspWord
  | .ok p => some ((0 : BitVec 1) ++ p)
  | .formatError => none

/-- Whether a response word on the wires carries this response: `err` in bit 32, the result below it, and with `err = 1` any
payload bits at all, since they have no defined value (R76; log 9). -/
def Response.carriedBy (r : Response) (rw : RspWord) : Bool :=
  match r with
  | .ok p => rw.extractLsb' 32 1 == 0 && rw.extractLsb' 0 32 == p
  | .formatError => rw.extractLsb' 32 1 == 1

/-- The cause's number, a label of tables and logs that appears on no wire (R130, R132). -/
def Cause.number : Cause → Nat
  | .formatError => 1
  | .addressInvalid => 2

/-- What the failing requester is given: the response with `err = 1`, or the refusal of its bank request (R137). -/
def Cause.delivered : Cause → Returned
  | .formatError => .response .formatError
  | .addressInvalid => .addressInvalid

end Sys2Proof.Machine
end

