-- ==== Sys2Proof/Machine/Ops.lean ====
section
/-! DEFINITION. The named operations over the banks and over the requesters, and the delivery of a failure. -/

namespace Sys2Proof.Machine

/-! ### The words of one bank, as a list of cells -/

/-- The word listed at an address. -/
def lookupCell (a : Nat) : List WordCell → Option Word
  | [] => none
  | (x, w) :: rest => if a = x then some w else lookupCell a rest

/-- List a word at an address, in place of any word listed there; the addresses stay strictly rising. -/
def insertCell (a : Nat) (w : Word) : List WordCell → List WordCell
  | [] => [(a, w)]
  | (x, v) :: rest =>
    if a < x then (a, w) :: (x, v) :: rest
    else if a = x then (a, w) :: rest
    else (x, v) :: insertCell a w rest

/-- Take every word at an address off the list. -/
def eraseCell (a : Nat) : List WordCell → List WordCell
  | [] => []
  | (x, v) :: rest => if a = x then eraseCell a rest else (x, v) :: eraseCell a rest

/-- Whether the addresses of a list are strictly rising. -/
def risingCells : List WordCell → Bool
  | [] => true
  | [_] => true
  | (x, _) :: (y, w) :: rest => decide (x < y) && risingCells ((y, w) :: rest)

/-! ### The Register Bank (R26, R40) -/

/-- The list of one bank. The four banks do not alias (R26). -/
def Memory.cells (m : Memory) : Bank → List WordCell
  | .di => m.di
  | .co => m.co
  | .hr => m.hr
  | .ir => m.ir

/-- A memory with another list for one bank. -/
def Memory.withCells (m : Memory) (b : Bank) (c : List WordCell) : Memory :=
  match b with
  | .di => { m with di := c }
  | .co => { m with co := c }
  | .hr => { m with hr := c }
  | .ir => { m with ir := c }

/-- `BANK_INIT(b, a)`: the word after reset, and so what a word that is not listed reads as (R34, R151; log 3). -/
def Params.initWord (p : Params) (b : Bank) (a : Nat) : Word :=
  (lookupCell a (p.bankInit.cells b)).getD (Config.bankInit b a)

/-- The canonical form: in each bank the addresses are strictly rising and within the capacity, and no word is listed that
equals what an unlisted one reads as. -/
def Memory.wf (p : Params) (m : Memory) : Bool :=
  [Bank.di, .co, .hr, .ir].all fun b =>
    risingCells (m.cells b) &&
      (m.cells b).all fun c => decide (c.1 < p.capacity) && decide (c.2 ≠ p.initWord b c.1)

/-- The word of a memory at an address of a bank: the one listed, or `BANK_INIT`. -/
def Memory.load (p : Params) (m : Memory) (b : Bank) (a : Nat) : Word :=
  (lookupCell a (m.cells b)).getD (p.initWord b a)

/-- A memory with another word at an address of a bank. Storing what an unlisted word reads as takes the word off the list,
which keeps the canonical form. -/
def Memory.store (p : Params) (m : Memory) (b : Bank) (a : Nat) (w : Word) : Memory :=
  if w = p.initWord b a then m.withCells b (eraseCell a (m.cells b)) else m.withCells b (insertCell a w (m.cells b))

/-- `B[a]` (R13). -/
def State.readWord (s : State) (b : Bank) (a : Nat) : Word := s.memory.load s.params b a

/-- `B[a] <- w` (R13). -/
def State.writeWord (s : State) (b : Bank) (a : Nat) (w : Word) : State :=
  { s with memory := s.memory.store s.params b a w }

/-- The words of one unit, stored one after the other; no other agent comes between (R47). -/
def State.writeCells (b : Bank) : List WordCell → State → State
  | [], s => s
  | (a, w) :: rest, s => writeCells b rest (s.writeWord b a w)

/-- The words of one unit, taken together with those of earlier units, by address (R41, R47). -/
def State.gather (s : State) (b : Bank) : List Nat → List WordCell → List WordCell
  | [], got => got
  | a :: rest, got => s.gather b rest (insertCell a (s.readWord b a) got)

/-! ### The requesters -/

/-- Change one requester. -/
def State.modifyRequester (s : State) (i : Nat) (f : Requester → Requester) : State :=
  { s with requesters := s.requesters.modify i f }

/-- A requester that has taken its next lines off its program. -/
def Requester.withProgram (q : Requester) (ls : List Line) : Requester := { q with program := ls }

/-- A requester that waits for an answer under a name. -/
def Requester.await (q : Requester) (dest : Name) : Requester := { q with dest := dest }

/-- A requester with an invocation in flight. -/
def Requester.withInFlight (q : Requester) (inv : Invocation) : Requester := { q with inFlight := some inv }

/-- A requester whose answer has come: it is recorded and bound to the name it was awaited under. -/
def Requester.receive (q : Requester) (r : Returned) (v : Value) : Requester :=
  { q with returned := q.returned ++ [r], names := (q.dest, v) :: q.names }

/-- A requester whose invocation has no unit left: nothing is in flight. -/
def Requester.settle (q : Requester) : Requester := { q with inFlight := none }

/-- A requester to which a failure was delivered: it is faulted for the rest of the run (R137). -/
def Requester.fail (q : Requester) (c : Cause) : Requester :=
  { q with returned := q.returned ++ [c.delivered], fault := some c }

/-- The command of requester `who` stands at the ports of the codec unit, its answer awaited under a name (R6). -/
def State.atPorts (s : State) (who : Nat) (dest : Name) : State :=
  { s with requesters := s.requesters.modify who (·.await dest), issuer := who }

/-! ### Failure (R137, R138) -/

/-- Taking a failure, the one "trap entry" there is (R137): it is delivered to the requester that issued the command or the
request and to nobody else; that requester is faulted; there is no vector, no saved pc, no saved status and no mode change, and
the bank is untouched. There is no return from it: a faulted requester never moves again (R138, `Requester.canMove`). -/
def State.takeFailure (s : State) (who : Nat) (c : Cause) : State :=
  s.modifyRequester who (·.fail c)

/-! ### Delivery of a codec response (R6, R76) -/

/-- The response goes to the requester that issued the command (R6, R137): a result is recorded and bound, FormatError is
taken as a failure. `bound` says what the name after `=>` is bound to (R80). -/
def State.deliver (s : State) (r : Response) (bound : Val32 → Value) : State :=
  match r with
  | .ok p => s.modifyRequester s.issuer (·.receive (.response (.ok p)) (bound p))
  | .formatError => s.takeFailure s.issuer .formatError

end Sys2Proof.Machine
end

