-- ==== Sys2Proof/Machine/Decodes.lean ====
section
/-! DEFINITION. The decode instructions `DECI32` and `DECF32` (R100, R101). -/

namespace Sys2Proof.Machine

/-- The response of a decode (R100, R101, R102): FormatError when `len` is not 2, with no bit of the payload looked at, else
`w0 :: w1`. -/
def decodeResponse (len : BitVec 8) (p : Val32) : Response :=
  if lengthErr len = 1 then .formatError else .ok (joinWords (hiWord p) (loWord p))

/-- `DECI32` (R100). The 32 bits come back with no sign attached; the integer they denote is `unsignedReading` (R104). -/
def execDecI32 (len : BitVec 8) (payload : Val32) (s : State) : Host.Outcome State Fault Refusal :=
  .next (s.deliver (decodeResponse len payload) Value.val)

/-- `DECF32` (R101). The pattern comes back bit for bit (R105); the number it denotes is `f32val` (R14). -/
def execDecF32 (len : BitVec 8) (payload : Val32) (s : State) : Host.Outcome State Fault Refusal :=
  .next (s.deliver (decodeResponse len payload) Value.val)

end Sys2Proof.Machine
end

