-- ==== Sys2Proof/Machine/Encode.lean ====
section
/-! DEFINITION. The encode instructions `ENCI32` and `ENCF32` (R90, R91). -/

namespace Sys2Proof.Machine

/-- The response of an encode (R90, R91, R93): `hi <- p[31:16]`, `lo <- p[15:0]`, `rsp.payload <- hi :: lo`, never an error. -/
def encodeResponse (p : Val32) : Response := .ok (joinWords (hiWord p) (loWord p))

/-- The result of an encode as the sequence `[hi, lo]` (R90). -/
def pairValue (p : Val32) : Value := .words (wordsOf p)

/-- `ENCI32` (R90). `len` is ignored (R73). -/
def execEncI32 (_len : BitVec 8) (payload : Val32) (s : State) : Host.Outcome State Fault Refusal :=
  .next (s.deliver (encodeResponse payload) pairValue)

/-- `ENCF32` (R91). `len` is ignored (R73); no pattern is changed, NaNs and infinities included (R94). -/
def execEncF32 (_len : BitVec 8) (payload : Val32) (s : State) : Host.Outcome State Fault Refusal :=
  .next (s.deliver (encodeResponse payload) pairValue)

end Sys2Proof.Machine
end

