-- ==== Sys2Proof/Machine/Dispatch.lean ====
section
/-! DEFINITION. One arm per instruction (R70). -/

namespace Sys2Proof.Machine

def exec (i : Instr) (s : State) : Host.Outcome State Fault Refusal :=
  match i with
  | .encI32 len payload => Sys2Proof.Machine.execEncI32 len payload s
  | .encF32 len payload => Sys2Proof.Machine.execEncF32 len payload s
  | .decI32 len payload => Sys2Proof.Machine.execDecI32 len payload s
  | .decF32 len payload => Sys2Proof.Machine.execDecF32 len payload s

end Sys2Proof.Machine
end

