-- ==== Sys2Proof/Machine/AddressMap.lean ====
section
/-! DEFINITION. The address map: the fields of the holding-registers and of the input-registers (R29, R30). -/

namespace Sys2Proof.Machine

/-- The kind of a field (R29, R30): one raw word, or a pair of one of the two kinds. -/
inductive FieldKind where
  | rawWord
  | pair (k : ValueKind)
  deriving DecidableEq, Repr

/-- The ten fields of the address map (R29, R30). -/
inductive FieldId where
  | controlMode | pump1Setpoint | pump2Setpoint
  | controlEcho | pump1Speed | pump1Power | pump1Outflow | pump2Speed | pump2Power | pump2Outflow
  deriving DecidableEq, Repr

/-- A row of the address map: where the field is and what it is. -/
structure Field where
  bank : Bank
  addr : Nat
  kind : FieldKind
  deriving DecidableEq, Repr

/-- The row of a field (the tables of R29 and R30). -/
def FieldId.field : FieldId → Field
  | .controlMode => ⟨.hr, 0, .rawWord⟩
  | .pump1Setpoint => ⟨.hr, 1, .pair .int32⟩
  | .pump2Setpoint => ⟨.hr, 3, .pair .int32⟩
  | .controlEcho => ⟨.ir, 0, .rawWord⟩
  | .pump1Speed => ⟨.ir, 1, .pair .int32⟩
  | .pump1Power => ⟨.ir, 3, .pair .float32⟩
  | .pump1Outflow => ⟨.ir, 5, .pair .float32⟩
  | .pump2Speed => ⟨.ir, 7, .pair .int32⟩
  | .pump2Power => ⟨.ir, 9, .pair .float32⟩
  | .pump2Outflow => ⟨.ir, 11, .pair .float32⟩

/-- All the fields, in the order of the tables. -/
def allFields : List FieldId :=
  [.controlMode, .pump1Setpoint, .pump2Setpoint, .controlEcho, .pump1Speed, .pump1Power, .pump1Outflow, .pump2Speed,
    .pump2Power, .pump2Outflow]

/-- How many words a field takes: one, or the two of a pair (R28, R29, R30). -/
def Field.width (f : Field) : Nat :=
  match f.kind with
  | .rawWord => 1
  | .pair _ => 2

/-- Whether the word at `a` of bank `b` belongs to the field. -/
def Field.holds (f : Field) (b : Bank) (a : Nat) : Bool :=
  f.bank == b && decide (f.addr ≤ a ∧ a < f.addr + f.width)

/-- The field a word belongs to; `none` for a word without a field (R31). -/
def fieldAt (b : Bank) (a : Nat) : Option FieldId :=
  allFields.find? fun f => f.field.holds b a

/-- Whether two words of a bank belong to one field (R47). -/
def sameField (b : Bank) (a a' : Nat) : Bool :=
  match fieldAt b a with
  | none => false
  | some f => fieldAt b a' == some f

/-- The kind of the codec operations that apply to a field: none for a raw word (R32), else the pair's own (R29, R30). -/
def Field.codecKind (f : Field) : Option ValueKind :=
  match f.kind with
  | .rawWord => none
  | .pair k => some k

end Sys2Proof.Machine
end

