-- ==== Sys2Proof/Machine/Invocations.lean ====
section
/-! DEFINITION. The bank's two primitives `MemRead` and `MemWrite` (R41, R42), their validity (R43) and their units (R47). -/

namespace Sys2Proof.Machine

/-- Whether a request `(B, a, n)` is valid (R43). `B` is one of the four banks and `a >= 0` by their types. -/
def validRequest (p : Params) (a n : Nat) : Bool := decide (1 ≤ n ∧ a + n ≤ p.capacity)

/-- Cut addresses that stand in a row into groups, each the words of one field or one word without a field (R47). -/
def groupByField (b : Bank) : List Nat → List (List Nat)
  | [] => []
  | a :: rest =>
    match groupByField b rest with
    | (c :: cs) :: groups => if sameField b a c then (a :: c :: cs) :: groups else [a] :: (c :: cs) :: groups
    | groups => [a] :: groups

/-- The addresses a request covers. -/
def requestAddrs (a n : Nat) : List Nat := List.range' a n

/-- The units of an invocation of `n` words at `a` (R47, R49). -/
def unitsOf (p : Params) (b : Bank) (a n : Nat) : List (List Nat) :=
  match p.atomicity with
  | .full => [requestAddrs a n]
  | .pair => if n ≤ 2 then [requestAddrs a n] else groupByField b (requestAddrs a n)
  | .word => (requestAddrs a n).map fun x => [x]

/-- The cells of a write that stand at the addresses of one unit. -/
def cellsOfUnit (u : List Nat) (cells : List WordCell) : List WordCell := cells.filter fun c => u.contains c.1

/-- Which of the pending units a choice takes: every unit can be chosen, since the order is open (R50). -/
def unitIndex (inv : Invocation) (choice : Nat) : Nat := choice % inv.pending.length

/-- The unit a choice takes. -/
def chosenUnit (inv : Invocation) (choice : Nat) : List Nat := inv.pending.getD (unitIndex inv choice) []

/-- The units that are left. -/
def unitsLeft (inv : Invocation) (choice : Nat) : List (List Nat) := inv.pending.eraseIdx (unitIndex inv choice)

/-- One unit of a read (R41): its words are taken at this step; when it was the last, the words are returned in address order. -/
def readUnit (who : Nat) (s : State) (inv : Invocation) (choice : Nat) (got : List WordCell) : State :=
  let got' := s.gather inv.bank (chosenUnit inv choice) got
  if (unitsLeft inv choice).isEmpty then
    s.modifyRequester who fun q => (q.receive (.words (got'.map Prod.snd)) (.words (got'.map Prod.snd))).settle
  else
    s.modifyRequester who
      (·.withInFlight { bank := inv.bank, pending := unitsLeft inv choice, access := .read got' })

/-- One unit of a write (R42): its words are stored at this step and no other word changes. A write returns nothing. -/
def writeUnit (who : Nat) (s : State) (inv : Invocation) (choice : Nat) (cells : List WordCell) : State :=
  let s' := s.writeCells inv.bank (cellsOfUnit (chosenUnit inv choice) cells)
  if (unitsLeft inv choice).isEmpty then s'.modifyRequester who (·.settle)
  else
    s'.modifyRequester who
      (·.withInFlight { bank := inv.bank, pending := unitsLeft inv choice, access := .write cells })

/-- The bank performs one unit of a requester's invocation (R47). -/
def performUnit (who : Nat) (choice : Nat) (inv : Invocation) (s : State) : State :=
  match inv.access with
  | .read got => readUnit who s inv choice got
  | .write cells => writeUnit who s inv choice cells

/-- `MemRead(B, a, n)` begun by a requester: refused whole when it is not valid (R43), else its first unit is performed. -/
def execMemRead (who choice : Nat) (b : Bank) (a n : Nat) (s : State) : State :=
  if validRequest s.params a n then
    performUnit who choice { bank := b, pending := unitsOf s.params b a n, access := .read [] } s
  else s.takeFailure who .addressInvalid

/-- `MemWrite(B, a, ws)` begun by a requester: refused whole when it is not valid (R43), else its first unit is performed. -/
def execMemWrite (who choice : Nat) (b : Bank) (a : Nat) (ws : List Word) (s : State) : State :=
  if validRequest s.params a ws.length then
    performUnit who choice
      { bank := b, pending := unitsOf s.params b a ws.length, access := .write ((requestAddrs a ws.length).zip ws) } s
  else s.takeFailure who .addressInvalid

end Sys2Proof.Machine
end

