-- ==== Sys2Proof/Machine/Turns.lean ====
section
/-! DEFINITION. A turn of a requester (R7, R53): it has one unit of its invocation performed, or issues its next line. -/

namespace Sys2Proof.Machine

/-- Whether a requester can move: it is not faulted (R137), and it has a unit pending or a line to issue (R161). -/
def Requester.canMove (q : Requester) : Bool := q.fault.isNone && (q.inFlight.isSome || !q.program.isEmpty)

/-- The requesters that can move, from the first. -/
def movable : Nat → List Requester → List Nat
  | _, [] => []
  | k, q :: qs => if q.canMove then k :: movable (k + 1) qs else movable (k + 1) qs

/-- The requesters that can move. -/
def State.runnable (s : State) : List Nat := movable 0 s.requesters

/-- The next turn: the schedule's, or a free value where the schedule has run out (log 1). -/
def State.nextTurn (s : State) : Turn :=
  match s.turns with
  | t :: _ => t
  | [] => { who := (Config.freeTurn s.draws).1, unit := (Config.freeTurn s.draws).2 }

/-- The turn is spent. -/
def State.spendTurn (s : State) : State := { s with turns := s.turns.tail, draws := s.draws + 1 }

/-- The requester the next turn goes to: one that can move, and every one that can move may be it (R53, R160; log 14). -/
def State.chosen (s : State) : Option Nat := s.runnable[s.nextTurn.who % s.runnable.length]?

/-- A command issued by a requester: it stands at the ports, its answer is awaited under a name, and the unit answers it in the
same step (R6, R7). -/
def issue (who : Nat) (dest : Name) (i : Instr) (s : State) : Host.Outcome State Fault Refusal :=
  exec i (s.atPorts who dest)

/-- A requester performs a line, which is already off its program. -/
def runLine (who choice : Nat) (names : List (Name × Value)) (rest : List Line) (line : Line) (s : State) :
    Host.Outcome State Fault Refusal :=
  match line with
  | .command cw dest => issue who dest (decode cw) s
  | .enc k v dest =>
    match evalVal names v with
    | .ok p => issue who dest (encCommand k p) s
    | .error x => .fault (.unboundOperand x)
  | .dec k len w0 w1 dest =>
    match evalWord names w0, evalWord names w1 with
    | .ok a, .ok b => issue who dest (decCommand k len (joinWords a b)) s
    | .error x, _ => .fault (.unboundOperand x)
    | .ok _, .error x => .fault (.unboundOperand x)
  | .decSeq k x dest =>
    match evalSeq names x with
    | .ok ws => issue who dest (presentSeq k (Config.unexamined s.draws) ws) s
    | .error y => .fault (.unboundOperand y)
  | .memRead b a n dest => .next (execMemRead who choice b a n (s.modifyRequester who (·.await dest)))
  | .memWrite b a ws =>
    match evalWords names ws with
    | .ok words => .next (execMemWrite who choice b a words s)
    | .error x => .fault (.unboundOperand x)
  | .skipIfZero c n =>
    match evalWord names c with
    | .ok w => .next (if w = 0 then s.modifyRequester who (·.withProgram (rest.drop n)) else s)
    | .error x => .fault (.unboundOperand x)

/-- A turn of requester `who`: a pending unit is performed, or its next line is issued (R53). -/
def takeTurn (who choice : Nat) (s : State) : Host.Outcome State Fault Refusal :=
  match s.requesters[who]? with
  | none => .next s
  | some q =>
    match q.inFlight, q.program with
    | some inv, _ => .next (performUnit who choice inv s)
    | none, [] => .next s
    | none, line :: rest => runLine who choice q.names rest line (s.modifyRequester who (·.withProgram rest))

/-- Turns of one requester in a row, with the choice of the unit at each; a fault or a refusal ends them. -/
def repeatTurns (who : Nat) : List Nat → State → Host.Outcome State Fault Refusal
  | [], s => .next s
  | c :: cs, s =>
    match takeTurn who c s with
    | .next t => repeatTurns who cs t
    | .fault r => .fault r
    | .refused r => .refused r

/-- A requester that presents one command word and stops. -/
def Requester.oneCommand (cw : CmdWord) : Requester :=
  { Requester.idle (.other 0) with program := [.command cw 0] }

end Sys2Proof.Machine
end

