-- ==== Sys2Proof/Machine/Step.lean ====
section
/-! DEFINITION. One step of the machine (R7), and how the host places an instruction for the next step. -/

namespace Sys2Proof.Machine

/-- One step: the requester the turn goes to takes it. When no requester can move the run has ended and nothing happens any
more (R161; log 8). -/
def step (s : State) : Host.Outcome State Fault Refusal :=
  match s.chosen with
  | none => .next s
  | some who => takeTurn who s.nextTurn.unit s.spendTurn

/-- The command word `w` as the next command presented to the codec unit: a requester with that one command is put first, and
the next turn is its (log 7). Nothing is fetched from a memory (R22, R56), and a command has no bit above bit 41 (R71). -/
def State.withFetchWord (s : State) (_nbits w : Nat) : State :=
  { s with
    requesters := Requester.oneCommand (BitVec.ofNat 42 w) :: s.requesters,
    turns := { who := 0, unit := 0 } :: s.turns }

end Sys2Proof.Machine
end

