-- ==== Sys2Proof/Machine/Asm.lean ====
section
/-! DEFINITION. The assembler syntax of R80, as the text of a line. Names are written `x0`, `x1`, and so on; the pair an encode
binds is written by its two words, as in R80. -/

namespace Sys2Proof.Machine

/-- One hexadecimal digit. -/
def hexDigit (n : Nat) : String :=
  ["0", "1", "2", "3", "4", "5", "6", "7", "8", "9", "A", "B", "C", "D", "E", "F"].getD n "?"

/-- The last `d` hexadecimal digits of a number. -/
def hexDigits : Nat → Nat → String
  | 0, _ => ""
  | d + 1, n => hexDigits d (n / 16) ++ hexDigit (n % 16)

/-- A hexadecimal literal of a vector, with as many digits as the width needs (R9). -/
def hexLit {n : Nat} (v : BitVec n) : String := "0x" ++ hexDigits ((n + 3) / 4) v.toNat

/-- The text of a name. -/
def nameText (x : Name) : String := "x" ++ Nat.repr x

/-- The name of a bank (R26). -/
def bankText : Bank → String
  | .di => "DI"
  | .co => "CO"
  | .hr => "HR"
  | .ir => "IR"

/-- The name of a requester (R142). -/
def roleText : Role → String
  | .tick => "TICK"
  | .serve => "SERVE"
  | .other n => "REQ" ++ Nat.repr n

/-- The text of `x[k]` (R12). -/
def elemText (x : Name) (k : Nat) : String := nameText x ++ "[" ++ Nat.repr k ++ "]"

/-- The text of a word operand. -/
def WordOperand.text : WordOperand → String
  | .lit w => hexLit w
  | .elem x k => elemText x k
  | .flagNot x k => "not " ++ elemText x k

/-- The text of a 32-bit operand. -/
def ValOperand.text : ValOperand → String
  | .lit v => hexLit v
  | .name x => nameText x

/-- The mnemonic of the encode of a kind (R70). -/
def encMnemonic : ValueKind → String
  | .int32 => "ENCI32"
  | .float32 => "ENCF32"

/-- The mnemonic of the decode of a kind (R70). -/
def decMnemonic : ValueKind → String
  | .int32 => "DECI32"
  | .float32 => "DECF32"

/-- The text of operands with commas between. -/
def commaText : List String → String
  | [] => ""
  | [t] => t
  | t :: ts => t ++ ", " ++ commaText ts

/-- The text of a line (R80, R81). -/
def Line.text : Line → String
  | .command cw dest => "CW " ++ hexLit cw ++ " => " ++ nameText dest
  | .enc k v dest => encMnemonic k ++ " " ++ v.text ++ " => (" ++ elemText dest 0 ++ ", " ++ elemText dest 1 ++ ")"
  | .dec k len w0 w1 dest =>
    decMnemonic k ++ " " ++ Nat.repr len.toNat ++ ", " ++ w0.text ++ ", " ++ w1.text ++ " => " ++ nameText dest
  | .decSeq k x dest => decMnemonic k ++ " " ++ nameText x ++ " => " ++ nameText dest
  | .memRead b a n dest =>
    "MemRead(" ++ bankText b ++ ", " ++ Nat.repr a ++ ", " ++ Nat.repr n ++ ") => " ++ nameText dest
  | .memWrite b a ws =>
    "MemWrite(" ++ bankText b ++ ", " ++ Nat.repr a ++ ", [" ++ commaText (ws.map WordOperand.text) ++ "])"
  | .skipIfZero c n => "skip " ++ Nat.repr n ++ " if " ++ c.text ++ " = 0"

/-- The text of a pseudo-instruction (R81). -/
def Pseudo.text : Pseudo → String
  | .sti32 b a v => "STI32 " ++ bankText b ++ ", " ++ Nat.repr a ++ ", " ++ v.text
  | .stf32 b a v => "STF32 " ++ bankText b ++ ", " ++ Nat.repr a ++ ", " ++ v.text
  | .ldi32 b a dest => "LDI32 " ++ bankText b ++ ", " ++ Nat.repr a ++ " => " ++ nameText dest
  | .ldf32 b a dest => "LDF32 " ++ bankText b ++ ", " ++ Nat.repr a ++ " => " ++ nameText dest
  | .stw b a w => "STW " ++ bankText b ++ ", " ++ Nat.repr a ++ ", " ++ w.text
  | .ldw b a dest => "LDW " ++ bankText b ++ ", " ++ Nat.repr a ++ " => " ++ nameText dest

/-- A line with the requester that issues it in front (R80). -/
def prefixedText (r : Role) (l : Line) : String := roleText r ++ ": " ++ l.text

end Sys2Proof.Machine
end

