-- ==== Sys2Proof/Machine/Float.lean ====
section
/-! DEFINITION. The value of a binary32 pattern (R14), and the pattern of a number that is exactly a binary32 value (R80, R95).
The codec computes with neither (R94, R105): they say which number a pattern denotes. The layout is the spec's passage from
general knowledge (log 19). -/

namespace Sys2Proof.Machine

/-- What a binary32 pattern denotes (R14). `m` and `e` give the magnitude `m * 2^e`. -/
inductive F32 where
  | zero (neg : Bool)
  | subnormal (neg : Bool) (m : Nat)
  | normal (neg : Bool) (m : Nat) (e : Int)
  | infinity (neg : Bool)
  | nan (neg quiet : Bool) (payload : BitVec 22)
  deriving DecidableEq, Repr

/-- `S = p[31]` (R14). -/
def f32Sign (p : Val32) : Bool := p.getLsbD 31

/-- `E = u(p[30:23])` (R14). -/
def f32Exponent (p : Val32) : Nat := (p.extractLsb' 23 8).toNat

/-- `F = u(p[22:0])` (R14). -/
def f32Fraction (p : Val32) : Nat := (p.extractLsb' 0 23).toNat

/-- A pattern is finite when `E` is not 255 (R14). -/
def f32Finite (p : Val32) : Bool := f32Exponent p != 255

/-- `f32val(p)` (R14). -/
def f32val (p : Val32) : F32 :=
  if f32Exponent p = 0 then
    if f32Fraction p = 0 then .zero (f32Sign p) else .subnormal (f32Sign p) (f32Fraction p)
  else if f32Exponent p = 255 then
    if f32Fraction p = 0 then .infinity (f32Sign p) else .nan (f32Sign p) (p.getLsbD 22) (p.extractLsb' 0 22)
  else .normal (f32Sign p) (2 ^ 23 + f32Fraction p) ((f32Exponent p : Int) - 150)

/-- A sign applied to a magnitude. -/
def withSign (neg : Bool) (q : ℚ) : ℚ := if neg then -q else q

/-- The rational number a finite pattern denotes; both zeros denote 0 (R14). -/
def F32.toRat : F32 → Option ℚ
  | .zero _ => some 0
  | .subnormal neg m => some (withSign neg ((m : ℚ) * 2 ^ (-149 : Int)))
  | .normal neg m e => some (withSign neg ((m : ℚ) * 2 ^ e))
  | .infinity _ => none
  | .nan _ _ _ => none

/-- A pattern from its three fields (R14). -/
def packF32 (neg : Bool) (exponent fraction : Nat) : Val32 :=
  BitVec.ofBool neg ++ BitVec.ofNat 8 exponent ++ BitVec.ofNat 23 fraction

/-- `m * 2^k` where it is a whole number. -/
def scaleExact (m : Nat) (k : Int) : Option Nat :=
  if 0 ≤ k then some (m * 2 ^ k.toNat)
  else if m % 2 ^ (-k).toNat = 0 then some (m / 2 ^ (-k).toNat) else none

/-- The pattern of the number with sign `neg` and magnitude `m * 2^e`, where that number is exactly a binary32 value; `none`
otherwise: nothing is rounded (R80, R95; log 16). -/
def exactF32 (neg : Bool) (m : Nat) (e : Int) : Option Val32 :=
  if m = 0 then some (packF32 neg 0 0)
  else
    let top : Int := (Nat.log2 m : Int) + e
    if 127 < top then none
    else if -126 ≤ top then
      match scaleExact m (23 - (Nat.log2 m : Int)) with
      | some f => some (packF32 neg (top + 127).toNat (f - 2 ^ 23))
      | none => none
    else
      match scaleExact m (e + 149) with
      | some f => some (packF32 neg 0 f)
      | none => none

/-- An integer as the operand of `ENCI32` (R80, R90); none where it cannot be presented (R95). -/
def intOperand (i : Int) : Option ValOperand := (pat32 i).map ValOperand.lit

/-- The number with sign `neg` and magnitude `m * 2^e` as the operand of `ENCF32` (R80, R91); none where it is not exactly a
binary32 value (R95). -/
def floatOperand (neg : Bool) (m : Nat) (e : Int) : Option ValOperand := (exactF32 neg m e).map ValOperand.lit

end Sys2Proof.Machine
end

