-- ==== Sys2Proof/Machine/Sequences.lean ====
section
/-! DEFINITION. The sequences the source's requesters perform, as programs (R116 to R119). What values the surrounding software
computes is out of scope (R5); which fields it moves, in which order and by which instruction, is in scope. -/

namespace Sys2Proof.Machine

/-- The two pumps of the station. -/
inductive Pump where
  | pump1 | pump2
  deriving DecidableEq, Repr

/-- The three telemetry values of a pump, as 32-bit patterns (R30). -/
structure PumpTelemetry where
  speed : Val32
  power : Val32
  outflow : Val32
  deriving DecidableEq, Repr

/-- What an inactive pump reports: integer 0 and float +0 (R117). -/
def PumpTelemetry.inactive : PumpTelemetry := { speed := 0, power := 0, outflow := 0 }

/-- The flag word of the frame in LOCAL mode (R117). -/
def localFlag : Word := 0

/-- The flag word of the frame in EXTERNAL mode (R117). -/
def externalFlag : Word := 1

/-- The 13 words of the telemetry frame, in order: the flag, then each field as `[hi, lo]` (R117). -/
def telemetryFrame (flag : Word) (t1 t2 : PumpTelemetry) : List Word :=
  flag :: (wordsOf t1.speed ++ wordsOf t1.power ++ wordsOf t1.outflow ++ wordsOf t2.speed ++ wordsOf t2.power ++
    wordsOf t2.outflow)

/-- `TICK` writes the frame as one invocation of 13 words (R117). The names 1 to 6 hold the encoded fields. -/
def frameAtOnce (flag : Word) (t1 t2 : PumpTelemetry) : List Line :=
  [ .enc .int32 (.lit t1.speed) 1, .enc .float32 (.lit t1.power) 2, .enc .float32 (.lit t1.outflow) 3,
    .enc .int32 (.lit t2.speed) 4, .enc .float32 (.lit t2.power) 5, .enc .float32 (.lit t2.outflow) 6,
    .memWrite .ir 0 [.lit flag, .elem 1 0, .elem 1 1, .elem 2 0, .elem 2 1, .elem 3 0, .elem 3 1, .elem 4 0, .elem 4 1,
      .elem 5 0, .elem 5 1, .elem 6 0, .elem 6 1] ]

/-- `TICK` writes the frame field by field (R117). -/
def frameByFields (flag : Word) (t1 t2 : PumpTelemetry) : List Line :=
  (Pseudo.stw .ir 0 (.lit flag)).expand 0 ++
  (Pseudo.sti32 .ir 1 (.lit t1.speed)).expand 1 ++ (Pseudo.stf32 .ir 3 (.lit t1.power)).expand 2 ++
  (Pseudo.stf32 .ir 5 (.lit t1.outflow)).expand 3 ++ (Pseudo.sti32 .ir 7 (.lit t2.speed)).expand 4 ++
  (Pseudo.stf32 .ir 9 (.lit t2.power)).expand 5 ++ (Pseudo.stf32 .ir 11 (.lit t2.outflow)).expand 6

/-- `TICK` samples the control flag and, when it is not zero, loads the two setpoints (R119): the flag is bound to 0, the
setpoints to 1 and 2. -/
def readSetpoints : List Line :=
  (Pseudo.ldw .hr 0 0).expand 0 ++ [.skipIfZero (.elem 0 0) 4] ++
  (Pseudo.ldi32 .hr 1 1).expand 3 ++ (Pseudo.ldi32 .hr 3 2).expand 4

/-- `CLIENT` polls with seven invocations (R116): the flag is bound to 0, the six fields, in address order, to 1 to 6. -/
def pollByFields : List Line :=
  (Pseudo.ldw .ir 0 0).expand 0 ++
  (Pseudo.ldi32 .ir 1 1).expand 7 ++ (Pseudo.ldf32 .ir 3 2).expand 7 ++ (Pseudo.ldf32 .ir 5 3).expand 7 ++
  (Pseudo.ldi32 .ir 7 4).expand 7 ++ (Pseudo.ldf32 .ir 9 5).expand 7 ++ (Pseudo.ldf32 .ir 11 6).expand 7

/-- `CLIENT` polls with one invocation of 13 words and cuts it up, two words to a decode (R116). -/
def pollAtOnce : List Line :=
  [ .memRead .ir 0 13 0,
    .dec .int32 2 (.elem 0 1) (.elem 0 2) 1, .dec .float32 2 (.elem 0 3) (.elem 0 4) 2,
    .dec .float32 2 (.elem 0 5) (.elem 0 6) 3, .dec .int32 2 (.elem 0 7) (.elem 0 8) 4,
    .dec .float32 2 (.elem 0 9) (.elem 0 10) 5, .dec .float32 2 (.elem 0 11) (.elem 0 12) 6 ]

/-- The snapshot a poll returns (R116). The speeds are the integers `DECI32` denotes (R104), the floats the values of R14. -/
structure StationSnapshot where
  inControl : Bool
  pump1Speed : Nat
  pump2Speed : Nat
  pump1Power : F32
  pump2Power : F32
  pump1Outflow : F32
  pump2Outflow : F32
  deriving DecidableEq, Repr

/-- `inControl` of a snapshot, from the flag word of `IR[0]` (R30, R116): false of 0, LOCAL, and true of 1, EXTERNAL. The spec
does not say how the word becomes the `bool`, and no telemetry frame writes another word (R117): of any other word it is a free
value (log 22). -/
def inControlOf (w : Word) : Bool :=
  if w = localFlag then false else if w = externalFlag then true else Config.flagInControl w

/-- The snapshot of the names a poll has bound (R116). -/
def snapshotOf (names : List (Name × Value)) : Option StationSnapshot :=
  match lookupName 0 names, lookupName 1 names, lookupName 2 names, lookupName 3 names, lookupName 4 names,
      lookupName 5 names, lookupName 6 names with
  | some (.words (flag :: _)), some (.val s1), some (.val p1), some (.val o1), some (.val s2), some (.val p2),
      some (.val o2) =>
    some
      { inControl := inControlOf flag, pump1Speed := unsignedReading s1, pump2Speed := unsignedReading s2,
        pump1Power := f32val p1, pump2Power := f32val p2, pump1Outflow := f32val o1, pump2Outflow := f32val o2 }
  | _, _, _, _, _, _, _ => none

/-- Where the setpoint of a pump is (R29, R118). -/
def Pump.setpointAddr : Pump → Nat
  | .pump1 => 1
  | .pump2 => 3

/-- `setPumpSpeed(pumpId, speed)`, carried to the bank by `SERVE` (R118): nothing is clamped. -/
def setPumpSpeed (p : Pump) (speed : Val32) : List Line :=
  (Pseudo.sti32 .hr p.setpointAddr (.lit speed)).expand 0

/-- `toggleControl()`: the flag is loaded from `from_` and its complement stored in `HR[0]`, in two invocations (R55, R118).
Which bank the flag is loaded from is not stated and is an argument here. -/
def toggleControl (from_ : Bank) : List Line :=
  (Pseudo.ldw from_ 0 0).expand 0 ++ (Pseudo.stw .hr 0 (.flagNot 0 0)).expand 0

end Sys2Proof.Machine
end

