-- ==== Sys2Proof/Machine/Unit.lean ====
section
/-! DEFINITION. The codec unit as the pure function it is: the response to a command is a function of that command alone
(R6, R20). -/

namespace Sys2Proof.Machine

/-- The response to a command (R90, R91, R100, R101). -/
def responseOf : Instr → Response
  | .encI32 _ p => encodeResponse p
  | .encF32 _ p => encodeResponse p
  | .decI32 len p => decodeResponse len p
  | .decF32 len p => decodeResponse len p

/-- What the name after `=>` is bound to (R80): the sequence `[hi, lo]` of an encode, the 32-bit value of a decode. -/
def boundValue : Instr → Val32 → Value
  | .encI32 _ _ => pairValue
  | .encF32 _ _ => pairValue
  | .decI32 _ _ => Value.val
  | .decF32 _ _ => Value.val

end Sys2Proof.Machine
end

