-- ==== Sys2Proof/WellFormed.lean ====
section
/-! DEFINITION. What is well-formed: every instruction (R78), and a requester's program whose every operand is bound by an
earlier line with the right shape (R80). -/

namespace Sys2Proof

/-- Every instruction is well-formed: no field has a forbidden value and no bit is reserved (R78). -/
def Instr.wf : Instr → Bool
  | .encI32 _ _ => true
  | .encF32 _ _ => true
  | .decI32 _ _ => true
  | .decF32 _ _ => true

/-- Whether an instruction is the one the assembler writes: it sets `len = 0` in an encode (R80). -/
def Instr.canonical : Instr → Bool
  | .encI32 len _ => len == 0
  | .encF32 len _ => len == 0
  | .decI32 _ _ => true
  | .decF32 _ _ => true

namespace Machine

/-- The shape of a bound value: a sequence of so many words, or a 32-bit value. -/
inductive Shape where
  | words (n : Nat)
  | val
  deriving DecidableEq, Repr

/-- The shape of a value. -/
def Value.shape : Value → Shape
  | .words ws => .words ws.length
  | .val _ => .val

/-- The shapes of the names bound so far. -/
abbrev Shapes := List (Name × Shape)

/-- The shape of a name's latest binding. -/
def lookupShape (x : Name) : Shapes → Option Shape
  | [] => none
  | (y, t) :: rest => if x = y then some t else lookupShape x rest

/-- Whether `x[k]` is bound. -/
def elemOk (env : Shapes) (x : Name) (k : Nat) : Bool :=
  match lookupShape x env with
  | some (.words n) => decide (k < n)
  | _ => false

/-- Whether a word operand is bound. -/
def WordOperand.ok (env : Shapes) : WordOperand → Bool
  | .lit _ => true
  | .elem x k => elemOk env x k
  | .flagNot x k => elemOk env x k

/-- Whether a 32-bit operand is bound. -/
def ValOperand.ok (env : Shapes) : ValOperand → Bool
  | .lit _ => true
  | .name x => lookupShape x env == some .val

/-- Whether a name is bound to a sequence. -/
def seqOk (env : Shapes) (x : Name) : Bool :=
  match lookupShape x env with
  | some (.words _) => true
  | _ => false

/-- The shape of a command's result (R76): the pair `[hi, lo]` of an encode, the value of a decode. -/
def resultShape : Instr → Shape
  | .encI32 _ _ => .words 2
  | .encF32 _ _ => .words 2
  | .decI32 _ _ => .val
  | .decF32 _ _ => .val

/-- Whether the operands of a line are bound. -/
def Line.ok (env : Shapes) : Line → Bool
  | .command _ _ => true
  | .enc _ v _ => v.ok env
  | .dec _ _ w0 w1 _ => w0.ok env && w1.ok env
  | .decSeq _ x _ => seqOk env x
  | .memRead _ _ _ _ => true
  | .memWrite _ _ ws => ws.all (·.ok env)
  | .skipIfZero c _ => c.ok env

/-- The names bound after a line that has completed. -/
def Line.binds (env : Shapes) : Line → Shapes
  | .command cw dest => (dest, resultShape (decode cw)) :: env
  | .enc _ _ dest => (dest, .words 2) :: env
  | .dec _ _ _ _ dest => (dest, .val) :: env
  | .decSeq _ _ dest => (dest, .val) :: env
  | .memRead _ _ n dest => (dest, .words n) :: env
  | .memWrite _ _ _ => env
  | .skipIfZero _ _ => env

/-- How many lines a line may leave out. -/
def Line.skips : Line → Nat
  | .skipIfZero _ n => n
  | _ => 0

/-- The first of a list of checks; no check is left at the end of a program. -/
def firstCheck (checks : List (Shapes → Bool)) (env : Shapes) : Bool :=
  match checks with
  | [] => true
  | c :: _ => c env

/-- The check of a program and of each of its tails, the whole program first. -/
def programChecks : List Line → List (Shapes → Bool)
  | [] => []
  | line :: rest =>
    (fun env =>
      line.ok env && firstCheck (programChecks rest) (line.binds env) &&
        (line.skips == 0 || firstCheck ((programChecks rest).drop line.skips) (line.binds env))) :: programChecks rest

/-- Whether a program is well-formed where the names of `env` are bound: on every path through its `skipIfZero` lines each
operand is bound by an earlier line, with the right shape (R80). -/
def programOk (env : Shapes) (p : List Line) : Bool := firstCheck (programChecks p) env

end Machine

end Sys2Proof
end

