-- ==== Sys2Proof/Safety.lean ====
section
/-! DEFINITION. What counts as a safe run: the end of a run and a good end (R161), the premises a claim may take (R58, R137), the
well-formed state, what can be observed, and the work a run has left. -/

namespace Sys2Proof.Machine

/-! ### The end of a run (R161) -/

/-- A requester that has finished its program or is faulted, with no unit pending. -/
def Requester.done (q : Requester) : Bool := (q.fault.isSome || q.program.isEmpty) && q.inFlight.isNone

/-- The run has ended: every requester has finished its program or is faulted, and no invocation has units left (R161). -/
def State.ended (s : State) : Bool := s.requesters.all (·.done)

/-- No requester is faulted (R137). -/
def State.noneFaulted (s : State) : Bool := s.requesters.all fun q => q.fault.isNone

/-- A good end: the run has ended and no requester is faulted (R137, R161). -/
def State.goodEnd (s : State) : Bool := s.ended && s.noneFaulted

/-! ### What can be observed (R161) -/

/-- All that can be observed of a run: what was returned to each requester, and the words of the four banks (R161). -/
structure Observation where
  returned : List (List Returned)
  banks : List (List Word)
  deriving DecidableEq, Repr

/-- The words of a bank, from address 0 to the capacity. -/
def State.bankWords (s : State) (b : Bank) : List Word :=
  (List.range s.params.capacity).map fun a => s.readWord b a

/-- The observation of a state. -/
def State.observe (s : State) : Observation :=
  { returned := s.requesters.map (·.returned),
    banks := [s.bankWords .di, s.bankWords .co, s.bankWords .hr, s.bankWords .ir] }

/-! ### The premise `WriterDiscipline` (R58) -/

/-- Whether a requester of this role may write the bank under `WriterDiscipline`: only `SERVE` writes `HR`, only `TICK` writes
`IR` (R58). -/
def mayWrite (r : Role) (b : Bank) : Bool :=
  match b with
  | .hr => r == .serve
  | .ir => r == .tick
  | .di => true
  | .co => true

/-- Whether a line keeps the discipline for a role. -/
def Line.disciplined (r : Role) : Line → Bool
  | .memWrite b _ _ => mayWrite r b
  | _ => true

/-- Whether an invocation keeps the discipline for a role. -/
def Invocation.disciplined (r : Role) (inv : Invocation) : Bool :=
  match inv.access with
  | .read _ => true
  | .write _ => mayWrite r inv.bank

/-- `WriterDiscipline` of a requester: of its invocation in flight and of its program (R58). -/
def Requester.disciplined (q : Requester) : Bool :=
  q.program.all (·.disciplined q.role) && q.inFlight.all (·.disciplined q.role)

/-- `WriterDiscipline`, a named premise and nothing the bank checks (R58). -/
def State.writerDiscipline (s : State) : Bool := s.requesters.all (·.disciplined)

/-! ### Which words a requester's next turn may write -/

/-- Whether the next turn of a requester may store to a word: its write in flight holds a cell there, or the line it issues is
a `MemWrite` over that address. -/
def Requester.mayStore (q : Requester) (b : Bank) (a : Nat) : Bool :=
  match q.inFlight with
  | some inv =>
    match inv.access with
    | .read _ => false
    | .write cells => inv.bank == b && cells.any fun c => c.1 == a
  | none =>
    match q.program with
    | .memWrite b' a' ws :: _ => b' == b && decide (a' ≤ a ∧ a < a' + ws.length)
    | _ => false

/-- Whether the next turn of a requester performs a write unit that contains a word, when it takes the unit `choice` names: a
unit of its write in flight, or the first unit of the valid `MemWrite` it issues (R43, R47). -/
def Requester.storesInTurn (p : Params) (q : Requester) (choice : Nat) (b : Bank) (a : Nat) : Bool :=
  match q.inFlight with
  | some inv =>
    match inv.access with
    | .read _ => false
    | .write _ => inv.bank == b && (chosenUnit inv choice).contains a
  | none =>
    match q.program with
    | .memWrite b' a' ws :: _ =>
      b' == b && validRequest p a' ws.length &&
        (chosenUnit { bank := b', pending := unitsOf p b' a' ws.length, access := .write [] } choice).contains a
    | _ => false

/-- The next turn performs no write unit to the pair at `a` of bank `b`. -/
def State.sparesPair (b : Bank) (a : Nat) (s : State) : Prop :=
  ∀ who q, s.chosen = some who → s.requesters[who]? = some q →
    q.storesInTurn s.params s.nextTurn.unit b a = false ∧ q.storesInTurn s.params s.nextTurn.unit b (a + 1) = false

/-! ### Steps that are not a requester's own (R53) -/

/-- `n` steps lead from `s` to `t`, none of them the turn of requester `who`, each from a state of which `ok` holds. -/
def State.othersTake (who : Nat) (ok : State → Prop) : Nat → State → State → Prop
  | 0, s, t => t = s
  | n + 1, s, t => s.chosen ≠ some who ∧ ok s ∧ ∃ u, step s = .next u ∧ State.othersTake who ok n u t

/-! ### Well-formed states -/

/-- The addresses of an invocation that are left to perform. -/
def Invocation.addrsLeft (inv : Invocation) : List Nat := inv.pending.flatten

/-- An invocation in flight as the bank leaves it: units are left, none of their words twice, all within the capacity; the
words read so far, or to be stored, stand in address order; those read so far are not among those left, and each word left to
be stored is there. -/
def Invocation.wf (p : Params) (inv : Invocation) : Bool :=
  !inv.pending.isEmpty && decide inv.addrsLeft.Nodup && inv.addrsLeft.all (fun a => decide (a < p.capacity)) &&
    match inv.access with
    | .read got => risingCells got && got.all fun c => !inv.addrsLeft.contains c.1
    | .write cells =>
      risingCells cells && cells.all (fun c => decide (c.1 < p.capacity)) &&
        inv.addrsLeft.all fun a => (lookupCell a cells).isSome

/-- The shapes of the names a requester has bound. -/
def shapesOf (names : List (Name × Value)) : Shapes := names.map fun n => (n.1, n.2.shape)

/-- The shapes of a requester's names once its invocation has been answered. -/
def Requester.shapes (q : Requester) : Shapes :=
  match q.inFlight with
  | none => shapesOf q.names
  | some inv =>
    match inv.access with
    | .read got => (q.dest, .words (got.length + inv.addrsLeft.length)) :: shapesOf q.names
    | .write _ => shapesOf q.names

/-- A well-formed requester: a faulted one has nothing in flight (R137); any other has a well-formed program (R80) and
invocation. -/
def Requester.wf (p : Params) (q : Requester) : Bool :=
  if q.fault.isSome then q.inFlight.isNone
  else q.inFlight.all (·.wf p) && programOk q.shapes q.program

/-- A well-formed state: the capacity is allowed (R8), the memory is in canonical form, every requester is well-formed. -/
def State.wf (s : State) : Bool :=
  Config.capacityAllowed s.params.capacity && s.memory.wf s.params && s.requesters.all (·.wf s.params)

/-! ### The pair that is never torn (R48, R115, R154) -/

/-- Whether a unit of a write leaves the pair at `a` alone, or covers both its words with a value of `V`. -/
def unitKeepsPair (a : Nat) (V : Val32 → Prop) (cells : List WordCell) (u : List Nat) : Prop :=
  (a ∉ u ∧ a + 1 ∉ u) ∨
    (a ∈ u ∧ a + 1 ∈ u ∧
      ∃ hi lo, lookupCell a cells = some hi ∧ lookupCell (a + 1) cells = some lo ∧ V (joinWords hi lo))

/-- Whether an invocation in flight keeps the pair at `a` of bank `b` whole: it is a read, or of another bank, or each unit it
has left keeps the pair. -/
def Invocation.keepsPair (b : Bank) (a : Nat) (V : Val32 → Prop) (inv : Invocation) : Prop :=
  match inv.access with
  | .read _ => True
  | .write cells => inv.bank = b → ∀ u ∈ inv.pending, unitKeepsPair a V cells u

/-- The pair at `a` of bank `b` holds a value of `V`, and every write in flight keeps it whole. -/
def State.pairKept (s : State) (b : Bank) (a : Nat) (V : Val32 → Prop) : Prop :=
  V (joinWords (s.readWord b a) (s.readWord b (a + 1))) ∧
    ∀ q ∈ s.requesters, ∀ inv, q.inFlight = some inv → inv.keepsPair b a V

/-- The `MemWrite` the next turn issues, if it issues a valid one that reaches the pair at `a` of bank `b`, covers both its words
with a value of `V`, and is indivisible there: under `FULL`, as an invocation of at most two words, or because the pair is a
field of the address map (R47, R115, R120 (c)). -/
def State.issuesPairsWhole (s : State) (b : Bank) (a : Nat) (V : Val32 → Prop) : Prop :=
  ∀ who q start os rest ws, s.chosen = some who → s.requesters[who]? = some q → q.inFlight = none →
    q.program = .memWrite b start os :: rest → evalWords q.names os = .ok ws →
    validRequest s.params start ws.length = true → (∃ k, k < ws.length ∧ (start + k = a ∨ start + k = a + 1)) →
    (s.params.atomicity = .full ∨ ws.length ≤ 2 ∨ sameField b a (a + 1) = true) ∧
      ∃ k hi lo, start + k = a ∧ ws[k]? = some hi ∧ ws[k + 1]? = some lo ∧ V (joinWords hi lo)

/-- The scene of a torn pair (R154): the pair at `IR[1]` holds the old value, `TICK` has a `MemWrite` of the new value to issue
and `SERVE` a `MemRead` of the pair. -/
def State.tornScene (atomicity : Atomicity) (old new : Val32) (turns : List Turn) : State :=
  { params :=
      { capacity := Config.referenceCapacity, atomicity := atomicity,
        bankInit := { Memory.empty with ir := [(1, hiWord old), (2, loWord old)] } },
    memory := Memory.empty,
    requesters :=
      [ { Requester.idle .tick with program := [.memWrite .ir 1 [.lit (hiWord new), .lit (loWord new)]] },
        { Requester.idle .serve with program := [.memRead .ir 1 2 0] } ],
    issuer := 0,
    turns := turns,
    draws := 0 }

/-! ### The work a run has left (R160) -/

/-- A bound on the turns a line takes. -/
def Line.work : Line → Nat
  | .memRead _ _ n _ => n + 1
  | .memWrite _ _ ws => ws.length + 1
  | _ => 1

/-- The turns an invocation has left: one for each unit (R47). -/
def unitsPending (i : Option Invocation) : Nat :=
  match i with
  | none => 0
  | some inv => inv.pending.length

/-- A bound on the turns a requester has left; a faulted one has none (R137). -/
def Requester.work (q : Requester) : Nat :=
  if q.fault.isSome then 0 else unitsPending q.inFlight + (q.program.map Line.work).sum

/-- A bound on the steps until the run has ended. -/
def State.work (s : State) : Nat := (s.requesters.map Requester.work).sum

end Sys2Proof.Machine
end

