-- ==== Sys2Proof/Certificates/Slice0/Obligations.lean ====
section
/-! DEFINITION. The statements for the provers. Each docstring names the rules it formalises. -/

open Sys2Proof Sys2Proof.Machine

/-! ### Encoding (R70 to R79) -/

/-- A few command words of 95_test_vectors.md decode to the instructions they stand for (V-I4, V-I13, V-F7, V-D8, V-G8, V-E4). -/
def Obligations.VectorWordsDecode : Prop :=
  decode 0x00000000640#42 = .encI32 0 0x00000640#32 ∧
  decode 0x0FF00000640#42 = .encI32 255 0x00000640#32 ∧
  decode 0x100424872B0#42 = .encF32 0 0x424872B0#32 ∧
  decode 0x20212345678#42 = .decI32 2 0x12345678#32 ∧
  decode 0x302FFC12345#42 = .decF32 2 0xFFC12345#32 ∧
  decode 0x20D00000640#42 = .decI32 13 0x00000640#32

/-- Decoding an encoded instruction gives it back, every operand at every value (R71, R72). -/
def Obligations.DecodeOfEncodeIsTheInstruction : Prop :=
  ∀ i : Instr, decode (encode i) = i

/-- Encoding a decoded command word gives it back: no bit of a command word is dropped and every word is a command (R71, R72,
R78). -/
def Obligations.EncodeOfDecodeIsTheWord : Prop :=
  ∀ cw : CmdWord, encode (decode cw) = cw

/-- The map of masks and matches of R77, the spec's own decision (log 17); every word matches exactly one row, and the row's instruction is the one decoded, with
`len` in bits 39:32 and `payload` in bits 31:0. -/
def Obligations.EveryWordMatchesExactlyItsRow : Prop :=
  ∀ cw : CmdWord,
    ((cw &&& 0x30000000000#42 = 0x00000000000#42) ↔ decode cw = .encI32 (cw.extractLsb' 32 8) (cw.extractLsb' 0 32)) ∧
    ((cw &&& 0x30000000000#42 = 0x10000000000#42) ↔ decode cw = .encF32 (cw.extractLsb' 32 8) (cw.extractLsb' 0 32)) ∧
    ((cw &&& 0x30000000000#42 = 0x20000000000#42) ↔ decode cw = .decI32 (cw.extractLsb' 32 8) (cw.extractLsb' 0 32)) ∧
    ((cw &&& 0x30000000000#42 = 0x30000000000#42) ↔ decode cw = .decF32 (cw.extractLsb' 32 8) (cw.extractLsb' 0 32)) ∧
    (opcodeMap.filter fun r => r.selects cw).length = 1

/-- R71, R76: a response word carries exactly one outcome, a result or FormatError, told apart by bit 32; a failing response
is carried by every payload. -/
def Obligations.ResponseWordsCarryOneOutcome : Prop :=
  ∀ rw : RspWord,
    (rw.extractLsb' 32 1 = 0 → ∀ r : Response, r.carriedBy rw = true ↔ r = .ok (rw.extractLsb' 0 32)) ∧
    (rw.extractLsb' 32 1 = 1 → ∀ r : Response, r.carriedBy rw = true ↔ r = .formatError) ∧
    (∀ p : Val32, (Response.ok p).word = some rw ↔ rw = (0 : BitVec 1) ++ p) ∧
    Response.formatError.word = none

/-! ### The four instructions (R90 to R102) -/

/-- R90. `ENCI32` completes in every state, whatever `len`: `hi <- p[31:16]`, `lo <- p[15:0]`, `rsp.err <- 0`,
`rsp.payload <- hi :: lo`, which equals `p`; the sequence is `[hi, lo]`. The two words are the big-endian split of every integer
whose pattern `p` is. Nothing but what the issuing requester was given changes. -/
def Obligations.EncI32SplitsThePattern : Prop :=
  ∀ (len : BitVec 8) (p : Val32) (s : State),
    decode (0b00#2 ++ len ++ p) = .encI32 len p ∧
    (p.extractLsb' 16 16 ++ p.extractLsb' 0 16 : BitVec 32) = p ∧
    (∀ v : Int, pat32 v = some p →
      (unsignedReading (p.extractLsb' 16 16) : Int) * 65536 + unsignedReading (p.extractLsb' 0 16) = v % 2 ^ 32) ∧
    exec (.encI32 len p) s =
      .next { s with requesters := s.requesters.modify s.issuer fun q =>
        { q with
          returned := q.returned ++ [.response (.ok (p.extractLsb' 16 16 ++ p.extractLsb' 0 16))],
          names := (q.dest, .words [p.extractLsb' 16 16, p.extractLsb' 0 16]) :: q.names } }

/-- R91. `ENCF32` completes in every state, for every pattern, zeros, subnormals, infinities and NaNs included. -/
def Obligations.EncF32SplitsThePattern : Prop :=
  ∀ (len : BitVec 8) (p : Val32) (s : State),
    decode (0b01#2 ++ len ++ p) = .encF32 len p ∧
    (p.extractLsb' 16 16 ++ p.extractLsb' 0 16 : BitVec 32) = p ∧
    exec (.encF32 len p) s =
      .next { s with requesters := s.requesters.modify s.issuer fun q =>
        { q with
          returned := q.returned ++ [.response (.ok (p.extractLsb' 16 16 ++ p.extractLsb' 0 16))],
          names := (q.dest, .words [p.extractLsb' 16 16, p.extractLsb' 0 16]) :: q.names } }

/-- R100, R107. `DECI32` of two words completes in every state with `r = w0 :: w1`, and `u(r) = u(w0) * 65536 + u(w1)`. With any
other length the issuing requester takes FormatError and nothing else is done. -/
def Obligations.DecI32JoinsTheWords : Prop :=
  ∀ (w0 w1 : Word) (s : State),
    decode (0b10#2 ++ 2#8 ++ (w0 ++ w1)) = .decI32 2 (w0 ++ w1) ∧
    unsignedReading (w0 ++ w1) = unsignedReading w0 * 65536 + unsignedReading w1 ∧
    exec (.decI32 2 (w0 ++ w1)) s =
      .next { s with requesters := s.requesters.modify s.issuer fun q =>
        { q with
          returned := q.returned ++ [.response (.ok (w0 ++ w1))],
          names := (q.dest, .val (w0 ++ w1)) :: q.names } } ∧
    (∀ len p, len ≠ 2 → exec (.decI32 len p) s =
      .next { s with requesters := s.requesters.modify s.issuer fun q =>
        { q with returned := q.returned ++ [.response .formatError], fault := some .formatError } })

/-- R101. `DECF32` of two words completes in every state with `r = w0 :: w1`, whatever the pattern. With any other length the
issuing requester takes FormatError and nothing else is done. -/
def Obligations.DecF32JoinsTheWords : Prop :=
  ∀ (w0 w1 : Word) (s : State),
    decode (0b11#2 ++ 2#8 ++ (w0 ++ w1)) = .decF32 2 (w0 ++ w1) ∧
    exec (.decF32 2 (w0 ++ w1)) s =
      .next { s with requesters := s.requesters.modify s.issuer fun q =>
        { q with
          returned := q.returned ++ [.response (.ok (w0 ++ w1))],
          names := (q.dest, .val (w0 ++ w1)) :: q.names } } ∧
    (∀ len p, len ≠ 2 → exec (.decF32 len p) s =
      .next { s with requesters := s.requesters.modify s.issuer fun q =>
        { q with returned := q.returned ++ [.response .formatError], fault := some .formatError } })

/-- R92. Every command word whose `op[1] = 0` is answered without error, in every state. -/
def Obligations.EncodesNeverFail : Prop :=
  ∀ (cw : CmdWord) (s : State), cw.getLsbD 41 = false →
    ∃ p : Val32, responseOf (decode cw) = .ok p ∧ p = cw.extractLsb' 0 32 ∧ (responseOf (decode cw)).err = 0 ∧
      exec (decode cw) s = .next (s.deliver (.ok p) (boundValue (decode cw)))

/-- R102. A decode raises FormatError exactly when `len` is not 2, whatever the words; then `rsp.err` is 1, there is no payload,
and no bit of the payload influences the response. -/
def Obligations.FormatErrorExactlyWhenLengthIsNotTwo : Prop :=
  ∀ (len : BitVec 8) (p p' : Val32) (s : State),
    (responseOf (.decI32 len p) = .formatError ↔ len ≠ 2) ∧
    (responseOf (.decF32 len p) = .formatError ↔ len ≠ 2) ∧
    ((responseOf (.decI32 len p)).err = 1 ↔ len ≠ 2) ∧ ((responseOf (.decF32 len p)).err = 1 ↔ len ≠ 2) ∧
    (len ≠ 2 → (responseOf (.decI32 len p)).word = none ∧ (responseOf (.decF32 len p)).word = none) ∧
    (len ≠ 2 → exec (.decI32 len p) s = exec (.decI32 len p') s ∧ exec (.decF32 len p) s = exec (.decF32 len p') s)

/-- R137, R130. FormatError is delivered to the requester that issued the command and to nobody else, as a next state: that
requester is faulted and has the failing response, keeps its program and its names, and can move no more; the banks and every
other requester are untouched. -/
def Obligations.FormatErrorFaultsOnlyTheIssuer : Prop :=
  ∀ (i : Instr) (s : State) (q : Requester), responseOf i = .formatError → s.requesters[s.issuer]? = some q →
    ∃ t, exec i s = .next t ∧
      t.requesters[s.issuer]? =
        some { q with returned := q.returned ++ [.response .formatError], fault := some .formatError } ∧
      (∀ k, k ≠ s.issuer → t.requesters[k]? = s.requesters[k]?) ∧
      t.memory = s.memory ∧ t.params = s.params ∧ s.issuer ∉ t.runnable

/-- R20, R6. The response to a command is a function of that command alone: in any two states it is answered by one response
and one binding. -/
def Obligations.ResponseDependsOnTheCommandAlone : Prop :=
  ∀ i : Instr, ∃ (r : Response) (f : Val32 → Value), ∀ s : State, exec i s = .next (s.deliver r f)

/-- The frame of every instruction, from R90, R91, R100, R101 ("State written: none. Memory accessed: none.") and R137: no
word of any bank, no parameter, no turn and no other requester changes; of the issuing requester only what it was given changes
(its answers, the bound name, or its fault). -/
def Obligations.CodecInstructionsChangeOnlyTheIssuersAnswers : Prop :=
  ∀ (i : Instr) (s t : State), exec i s = .next t →
    (∀ b a, t.readWord b a = s.readWord b a) ∧ t.memory = s.memory ∧ t.params = s.params ∧ t.issuer = s.issuer ∧
    t.turns = s.turns ∧ t.draws = s.draws ∧ t.requesters.length = s.requesters.length ∧
    (∀ k, k ≠ s.issuer → t.requesters[k]? = s.requesters[k]?) ∧
    (∀ q, s.requesters[s.issuer]? = some q → ∃ q', t.requesters[s.issuer]? = some q' ∧
      q'.role = q.role ∧ q'.program = q.program ∧ q'.dest = q.dest ∧ q'.inFlight = q.inFlight ∧
      ((∃ p, responseOf i = .ok p ∧ q'.returned = q.returned ++ [.response (.ok p)] ∧
          q'.names = (q.dest, boundValue i p) :: q.names ∧ q'.fault = q.fault) ∨
        (responseOf i = .formatError ∧ q'.returned = q.returned ++ [.response .formatError] ∧ q'.names = q.names ∧
          q'.fault = some .formatError)))

/-! ### Round trips (R103, R104, R106) -/

/-- R103. Both directions of the round trip at the level of bits, for all values, of one kind and across kinds. -/
def Obligations.RoundTripOfBits : Prop :=
  (∀ (k k' : ValueKind) (p : Val32),
    ∃ r, responseOf (encCommand k p) = .ok r ∧
      responseOf (decCommand k' 2 (joinWords (hiWord r) (loWord r))) = .ok p) ∧
  (∀ (k k' : ValueKind) (w0 w1 : Word),
    ∃ r, responseOf (decCommand k 2 (joinWords w0 w1)) = .ok r ∧
      ∃ r', responseOf (encCommand k' r) = .ok r' ∧ hiWord r' = w0 ∧ loWord r' = w1)

/-- R104. The integer round trip: `u` of the decoded value is `v mod 2^32`, which is `v` exactly when `0 <= v`, and `v + 2^32`
below; `s` of it gives back every `v` from `-2^31` to `2^31 - 1`. Two points are the spec's own decisions: that a result denotes
`u(r)` (D8), and that `pat32` exists on all of `-2^31` to `2^32 - 1` (D6, log 16). -/
def Obligations.RoundTripOfIntegers : Prop :=
  ∀ v : Int, -(2 : Int) ^ 31 ≤ v → v ≤ 2 ^ 32 - 1 →
    ∃ p r, pat32 v = some p ∧ responseOf (.encI32 0 p) = .ok r ∧
      responseOf (.decI32 2 (joinWords (hiWord r) (loWord r))) = .ok p ∧
      (unsignedReading p : Int) = v % 2 ^ 32 ∧
      ((unsignedReading p : Int) = v ↔ 0 ≤ v) ∧
      (v < 0 → (unsignedReading p : Int) = v + 2 ^ 32) ∧
      (v ≤ 2 ^ 31 - 1 → signedReading p = v)

/-- R11 and R95, the spec's own decision (log 16). An integer has a pattern exactly when it lies from `-2^31` to `2^32 - 1`, and the pattern's unsigned reading is
the integer modulo `2^32`: its two's-complement representation up to `2^31 - 1`, its unsigned one above. -/
def Obligations.IntegerOperandsArePresentableExactlyInRange : Prop :=
  (∀ v : Int, (pat32 v).isSome = true ↔ -(2 : Int) ^ 31 ≤ v ∧ v ≤ 2 ^ 32 - 1) ∧
  (∀ (v : Int) (p : Val32), pat32 v = some p → (unsignedReading p : Int) = v % 2 ^ 32 ∧
    (v ≤ 2 ^ 31 - 1 → signedReading p = v) ∧ (2 ^ 31 ≤ v → (unsignedReading p : Int) = v))

/-- R14. Two patterns that denote the same value are the same pattern: the value keeps the sign of a zero and the sign, kind and
payload of a NaN. -/
def Obligations.BinaryPatternsAreDeterminedByTheirValue : Prop :=
  ∀ p q : Val32, f32val p = f32val q → p = q

/-- R80, R95, R14. A number presented to `ENCF32` as an operand is exactly the number its pattern denotes: nothing is rounded. -/
def Obligations.FloatOperandsAreExact : Prop :=
  ∀ (neg : Bool) (m : Nat) (e : Int) (p : Val32), exactF32 neg m e = some p →
    f32Finite p = true ∧ f32Sign p = neg ∧ (f32val p).toRat = some (withSign neg ((m : ℚ) * 2 ^ e))

/-- R80, R95, R14. Every number that is exactly the value of a finite pattern can be presented, and is presented as that
pattern. -/
def Obligations.EveryFiniteFloatIsPresentable : Prop :=
  ∀ (p : Val32) (m : Nat) (e : Int), f32Finite p = true →
    (f32val p).toRat = some (withSign (f32Sign p) ((m : ℚ) * 2 ^ e)) → exactF32 (f32Sign p) m e = some p

/-- R73, R75. A sequence presented to a decode fails exactly when it has not two words, however long it is; when it has two the
result is `w0 :: w1`, and the bits left on the port for missing words never matter. -/
def Obligations.PresentedSequencesFailUnlessTwoWords : Prop :=
  ∀ (k : ValueKind) (rest : Val32) (ws : List Word),
    (presentSeq k rest ws).len.toNat = min ws.length 255 ∧
    (responseOf (presentSeq k rest ws) = .formatError ↔ ws.length ≠ 2) ∧
    (∀ w0 w1, ws = [w0, w1] → responseOf (presentSeq k rest ws) = .ok (w0 ++ w1)) ∧
    (∀ rest', responseOf (presentSeq k rest ws) = responseOf (presentSeq k rest' ws))

/-- R106. Two commands issued by two requesters give each the answer it would get alone, in either order, and the same banks,
whether or not one of them fails. -/
def Obligations.CommandsOfTwoRequestersDoNotInteract : Prop :=
  ∀ (i i' : Instr) (who who' : Nat) (d d' : Name) (s : State), who ≠ who' →
    ∃ t₁ t₂ u₁ u₂, issue who d i s = .next t₁ ∧ issue who' d' i' t₁ = .next t₂ ∧
      issue who' d' i' s = .next u₁ ∧ issue who d i u₁ = .next u₂ ∧
      t₂.requesters = u₂.requesters ∧ t₂.memory = u₂.memory ∧ t₂.params = u₂.params ∧
      t₁.requesters[who]? = t₂.requesters[who]? ∧ u₁.requesters[who']? = u₂.requesters[who']?

/-! ### A step (R6, R7, R53) -/

/-- A step runs the decoded instruction: when the turn goes to a requester that presents a command word, the step is `exec` of
the decoded instruction, at the state in which the turn is spent, the line is off the requester's program, and its command
stands at the ports. -/
def Obligations.StepRunsThePresentedCommand : Prop :=
  ∀ (s : State) (who : Nat) (q : Requester) (cw : CmdWord) (d : Name) (rest : List Line),
    s.chosen = some who → s.requesters[who]? = some q → q.inFlight = none → q.program = .command cw d :: rest →
    step s = exec (decode cw) ((s.spendTurn.modifyRequester who (·.withProgram rest)).atPorts who d)

/-- The lines of R80 are the commands they are written for: an encode line presents its value with `len = 0`, a decode line
its length and its two words, and a decode of a whole sequence the sequence's length and first words (R73, R75). -/
def Obligations.StepRunsTheAssembledLine : Prop :=
  ∀ (s : State) (who : Nat) (q : Requester) (k : ValueKind) (d : Name) (rest : List Line),
    s.chosen = some who → s.requesters[who]? = some q → q.inFlight = none →
    (∀ v p, q.program = .enc k v d :: rest → evalVal q.names v = .ok p →
      step s = exec (encCommand k p) ((s.spendTurn.modifyRequester who (·.withProgram rest)).atPorts who d)) ∧
    (∀ len o0 o1 w0 w1, q.program = .dec k len o0 o1 d :: rest → evalWord q.names o0 = .ok w0 →
      evalWord q.names o1 = .ok w1 →
      step s =
        exec (decCommand k len (w0 ++ w1)) ((s.spendTurn.modifyRequester who (·.withProgram rest)).atPorts who d)) ∧
    (∀ x ws, q.program = .decSeq k x d :: rest → evalSeq q.names x = .ok ws →
      ∃ bits, step s =
        exec (presentSeq k bits ws) ((s.spendTurn.modifyRequester who (·.withProgram rest)).atPorts who d))

/-- The word the host places runs as the next instruction in every state, and its answer goes to the requester that holds it. -/
def Obligations.PlacedWordRunsNext : Prop :=
  ∀ (s : State) (nbits w : Nat), w < 2 ^ 42 →
    ∃ i u t, decodeTableWord nbits w = some i ∧ i = decode (BitVec.ofNat 42 w) ∧
      step (s.withFetchWord nbits w) = exec i u ∧ exec i u = .next t ∧ u.issuer = 0 ∧ u.memory = s.memory ∧
      u.params = s.params ∧ u.requesters.tail = s.requesters ∧ t.requesters.tail = s.requesters ∧
      t.turns = s.turns

/-- R50, R53. Every requester that can move may be the one the next turn goes to, and every pending unit may be the one that is
performed: no order is shut out. -/
def Obligations.EveryOrderIsPossible : Prop :=
  (∀ (s : State) (who : Nat) (ts : List Turn) (k : Nat), who ∈ s.runnable →
    ∃ n, ({ s with turns := ⟨n, k⟩ :: ts } : State).chosen = some who) ∧
  (∀ (inv : Invocation) (u : List Nat), u ∈ inv.pending → ∃ k, chosenUnit inv k = u)

/-- R137, R138. A faulted requester takes no further step: no step changes it in any way. -/
def Obligations.FaultedRequestersNeverMove : Prop :=
  ∀ (s t : State) (k : Nat) (q : Requester) (c : Cause), step s = .next t → s.requesters[k]? = some q →
    q.fault = some c → t.requesters[k]? = some q

/-- R8, R7. No step changes a parameter, the number of requesters, or which requester is which; a turn moves one requester. -/
def Obligations.StepsMoveOneRequesterAndKeepTheParameters : Prop :=
  ∀ s t : State, step s = .next t →
    t.params = s.params ∧ t.requesters.map (·.role) = s.requesters.map (·.role) ∧
    ((s.chosen = none ∧ t = s) ∨
      ∃ who, s.chosen = some who ∧ ∀ k, k ≠ who → t.requesters[k]? = s.requesters[k]?)

/-! ### The Register Bank (R26, R41 to R52) -/

/-- Two memories in canonical form that read alike at every address of every bank are the same data. -/
def Obligations.CanonicalMemoriesThatReadAlikeAreEqual : Prop :=
  ∀ (p : Params) (m m' : Memory), m.wf p = true → m'.wf p = true →
    (∀ b a, m.load p b a = m'.load p b a) → m = m'

/-- R51. Storing the same word twice leaves the bank as storing it once. -/
def Obligations.StoringTwiceIsStoringOnce : Prop :=
  ∀ (s : State) (b : Bank) (a : Nat) (w : Word), (s.writeWord b a w).writeWord b a w = s.writeWord b a w

/-- R43 and R133, the spec's own decision (log 10). A request is valid exactly when `n >= 1` and `a + n <= BANK_CAPACITY`; an invalid one is refused whole: no word
changes, no word is returned, and only the requester that issued it is faulted, by `AddressInvalid`. -/
def Obligations.InvalidRequestsAreRefusedWhole : Prop :=
  ∀ (who c : Nat) (b : Bank) (a n : Nat) (ws : List Word) (s : State),
    (validRequest s.params a n = true ↔ 1 ≤ n ∧ a + n ≤ s.params.capacity) ∧
    (¬(1 ≤ n ∧ a + n ≤ s.params.capacity) →
      execMemRead who c b a n s =
        { s with requesters := s.requesters.modify who fun q =>
          { q with returned := q.returned ++ [.addressInvalid], fault := some .addressInvalid } }) ∧
    (¬(1 ≤ ws.length ∧ a + ws.length ≤ s.params.capacity) →
      execMemWrite who c b a ws s =
        { s with requesters := s.requesters.modify who fun q =>
          { q with returned := q.returned ++ [.addressInvalid], fault := some .addressInvalid } })

/-- R47, R49. The units of a request, put together, are its addresses in order, each once, and no unit is empty. -/
def Obligations.UnitsPartitionTheRequest : Prop :=
  ∀ (p : Params) (b : Bank) (a n : Nat), 1 ≤ n →
    (unitsOf p b a n).flatten = List.range' a n ∧ unitsOf p b a n ≠ [] ∧ ∀ u ∈ unitsOf p b a n, u ≠ []

/-- R47. What is indivisible: under `FULL` the whole invocation; under `PAIR` an invocation of one or two words, and in a longer
one exactly the requested words of one field; under `WORD` one word (R49). -/
def Obligations.UnitsAreFieldsUnderPair : Prop :=
  ∀ (p : Params) (b : Bank) (a n : Nat), 1 ≤ n →
    (p.atomicity = .full → unitsOf p b a n = [List.range' a n]) ∧
    (p.atomicity = .pair → n ≤ 2 → unitsOf p b a n = [List.range' a n]) ∧
    (p.atomicity = .pair → 2 < n → ∀ x y, x ∈ List.range' a n → y ∈ List.range' a n →
      ((∃ u ∈ unitsOf p b a n, x ∈ u ∧ y ∈ u) ↔ x = y ∨ sameField b x y = true)) ∧
    (p.atomicity = .word → ∀ u ∈ unitsOf p b a n, ∃ x, u = [x])

/-- R41, R47. A valid `MemRead` that is one unit completes in its step: it returns the words `B[a]` to `B[a + n - 1]` in order,
all as they stand at that step, and changes no word. -/
def Obligations.OneUnitReadReturnsTheWords : Prop :=
  ∀ (who c : Nat) (b : Bank) (a n : Nat) (s : State), 1 ≤ n → a + n ≤ s.params.capacity →
    (s.params.atomicity = .full ∨ (s.params.atomicity = .pair ∧ n ≤ 2) ∨ n = 1) →
    execMemRead who c b a n s =
      { s with requesters := s.requesters.modify who fun q =>
        { q with
          returned := q.returned ++ [.words ((List.range' a n).map fun x => s.readWord b x)],
          names := (q.dest, .words ((List.range' a n).map fun x => s.readWord b x)) :: q.names,
          inFlight := none } }

/-- R42, R47. A valid `MemWrite` that is one unit completes in its step: `B[a + k]` is `ws[k]` for every `k`, every other word
of every bank is unchanged, and the requester is given nothing. -/
def Obligations.OneUnitWriteStoresTheWords : Prop :=
  ∀ (who c : Nat) (b : Bank) (a : Nat) (ws : List Word) (s : State), 1 ≤ ws.length →
    a + ws.length ≤ s.params.capacity →
    (s.params.atomicity = .full ∨ (s.params.atomicity = .pair ∧ ws.length ≤ 2) ∨ ws.length = 1) →
    (∀ k w, ws[k]? = some w → (execMemWrite who c b a ws s).readWord b (a + k) = w) ∧
    (∀ b' x, b' ≠ b ∨ x < a ∨ a + ws.length ≤ x →
      (execMemWrite who c b a ws s).readWord b' x = s.readWord b' x) ∧
    (execMemWrite who c b a ws s).requesters =
      s.requesters.modify who (fun q => { q with inFlight := none }) ∧
    (execMemWrite who c b a ws s).params = s.params

/-- R41, R50. A `MemRead` of any length, under every atomicity and with its units performed in every order, returns in as many
turns as it has units, when no other agent comes between: the words `B[a]` to `B[a + n - 1]`, in address order; no word of any
bank changes. -/
def Obligations.ReadsReturnTheWordsInEveryUnitOrder : Prop :=
  ∀ (s : State) (who : Nat) (q : Requester) (b : Bank) (a n : Nat) (d : Name) (rest : List Line) (choices : List Nat),
    s.requesters[who]? = some q → q.inFlight = none → q.program = .memRead b a n d :: rest → 1 ≤ n →
    a + n ≤ s.params.capacity → choices.length = (unitsOf s.params b a n).length →
    repeatTurns who choices s =
      .next { s with requesters := s.requesters.modify who fun q =>
        { q with
          program := rest,
          dest := d,
          returned := q.returned ++ [.words ((List.range' a n).map fun x => s.readWord b x)],
          names := (d, .words ((List.range' a n).map fun x => s.readWord b x)) :: q.names,
          inFlight := none } }

/-- R42, R50. A `MemWrite` of any length, under every atomicity and with its units performed in every order, is done in as many
turns as it has units, when no other agent comes between: `B[a + k]` is `ws[k]`, every other word of every bank is as before, and
the requester is idle with nothing returned. -/
def Obligations.WritesStoreTheWordsInEveryUnitOrder : Prop :=
  ∀ (s : State) (who : Nat) (q : Requester) (b : Bank) (a : Nat) (os : List WordOperand) (ws : List Word)
    (rest : List Line) (choices : List Nat),
    s.requesters[who]? = some q → q.inFlight = none → q.program = .memWrite b a os :: rest →
    evalWords q.names os = .ok ws → 1 ≤ ws.length → a + ws.length ≤ s.params.capacity →
    choices.length = (unitsOf s.params b a ws.length).length →
    ∃ t, repeatTurns who choices s = .next t ∧
      (∀ k w, ws[k]? = some w → t.readWord b (a + k) = w) ∧
      (∀ b' x, b' ≠ b ∨ x < a ∨ a + ws.length ≤ x → t.readWord b' x = s.readWord b' x) ∧
      t.params = s.params ∧
      t.requesters = s.requesters.modify who fun q => { q with program := rest, inFlight := none }

/-- R41, R47, R52. One unit of a read, in any well-formed state, whatever turns came before: of a read in flight (`q₀` is the
requester as it is), or of the valid `MemRead` the requester issues (`q₀` is past the line). The step takes the words of the unit
the turn chooses as they stand at that step, keeps those already taken, and changes no word. When it was the last unit the
requester is given all the words in address order, else the other units are left. -/
def Obligations.ReadUnitsTakeTheWordsAsTheyStand : Prop :=
  ∀ (s : State) (who : Nat) (q q₀ : Requester) (inv : Invocation) (got : List WordCell),
    s.wf = true → s.chosen = some who → s.requesters[who]? = some q → inv.access = .read got →
    ((q.inFlight = some inv ∧ q₀ = q) ∨
      ∃ b a n d rest, q.inFlight = none ∧ q.program = .memRead b a n d :: rest ∧ 1 ≤ n ∧ a + n ≤ s.params.capacity ∧
        inv = { bank := b, pending := unitsOf s.params b a n, access := .read [] } ∧
        q₀ = { q with program := rest, dest := d }) →
    inv.pending.Perm (chosenUnit inv s.nextTurn.unit :: unitsLeft inv s.nextTurn.unit) ∧
    ∃ t got', step s = .next t ∧ risingCells got' = true ∧
      (∀ x, lookupCell x got' =
        if x ∈ chosenUnit inv s.nextTurn.unit then some (s.readWord inv.bank x) else lookupCell x got) ∧
      t.memory = s.memory ∧ (∀ b x, t.readWord b x = s.readWord b x) ∧
      (∀ k, k ≠ who → t.requesters[k]? = s.requesters[k]?) ∧
      t.requesters[who]? = some
        (if unitsLeft inv s.nextTurn.unit = [] then
          { q₀ with
            returned := q₀.returned ++ [.words (got'.map Prod.snd)],
            names := (q₀.dest, .words (got'.map Prod.snd)) :: q₀.names,
            inFlight := none }
        else
          { q₀ with
            inFlight := some
              { bank := inv.bank, pending := unitsLeft inv s.nextTurn.unit, access := .read got' } })

/-- R42, R47, R52. One unit of a write, in any well-formed state, whatever turns came before: of a write in flight (`q₀` is the
requester as it is), or of the valid `MemWrite` the requester issues (`q₀` is past the line). The step stores the words of the
unit the turn chooses and changes no other word of any bank; the requester is given nothing, and the other units are left. -/
def Obligations.WriteUnitsStoreTheirWordsAndNoOther : Prop :=
  ∀ (s : State) (who : Nat) (q q₀ : Requester) (inv : Invocation) (cells : List WordCell),
    s.wf = true → s.chosen = some who → s.requesters[who]? = some q → inv.access = .write cells →
    ((q.inFlight = some inv ∧ q₀ = q) ∨
      ∃ b a os ws rest, q.inFlight = none ∧ q.program = .memWrite b a os :: rest ∧ evalWords q.names os = .ok ws ∧
        1 ≤ ws.length ∧ a + ws.length ≤ s.params.capacity ∧
        inv =
          { bank := b, pending := unitsOf s.params b a ws.length,
            access := .write ((List.range' a ws.length).zip ws) } ∧
        q₀ = { q with program := rest }) →
    inv.pending.Perm (chosenUnit inv s.nextTurn.unit :: unitsLeft inv s.nextTurn.unit) ∧
    ∃ t, step s = .next t ∧
      (∀ x ∈ chosenUnit inv s.nextTurn.unit, ∃ w, lookupCell x cells = some w ∧ t.readWord inv.bank x = w) ∧
      (∀ b x, b ≠ inv.bank ∨ x ∉ chosenUnit inv s.nextTurn.unit → t.readWord b x = s.readWord b x) ∧
      (∀ k, k ≠ who → t.requesters[k]? = s.requesters[k]?) ∧
      t.requesters[who]? = some
        { q₀ with
          inFlight :=
            if unitsLeft inv s.nextTurn.unit = [] then none
            else some { inv with pending := unitsLeft inv s.nextTurn.unit } }

/-- R151, R56. A word changes in a step only when the requester that moves has a write in flight over it or issues a `MemWrite`
over it: no codec command, no read and nothing else changes a word. -/
def Obligations.WordsChangeOnlyByWrites : Prop :=
  ∀ (s t : State) (b : Bank) (a : Nat), step s = .next t → t.readWord b a ≠ s.readWord b a →
    ∃ who q, s.chosen = some who ∧ s.requesters[who]? = some q ∧ q.mayStore b a = true

/-- R58. Under the premise `WriterDiscipline`, which every step keeps, a word of the holding-registers changes only in a turn of
`SERVE`, and a word of the input-registers only in a turn of `TICK`. -/
def Obligations.WriterDisciplineDecidesWhoWrites : Prop :=
  ∀ (s t : State), step s = .next t → s.writerDiscipline = true →
    t.writerDiscipline = true ∧
    (∀ a, t.readWord .hr a ≠ s.readWord .hr a →
      ∃ who q, s.chosen = some who ∧ s.requesters[who]? = some q ∧ q.role = .serve) ∧
    (∀ a, t.readWord .ir a ≠ s.readWord .ir a →
      ∃ who q, s.chosen = some who ∧ s.requesters[who]? = some q ∧ q.role = .tick)

/-! ### The torn pair (R48, R49, R115, R154) -/

/-- R48, R115. Under `PAIR` and `FULL` a pair is never torn: let `V` say of a 32-bit value that it is one of the values stored to
the pair at `a`. Where the pair holds such a value and every write in flight covers it in one unit with such a value, and where
the valid `MemWrite` that is issued next (if one is, over the pair) covers both its words with such a value, under `FULL`, as one
or two words, or over a field of the address map, the pair holds such a value after every step, and again every write in flight
is such. -/
def Obligations.PairsAreNeverTornUnderConformingAtomicity : Prop :=
  ∀ (s t : State) (b : Bank) (a : Nat) (V : Val32 → Prop), s.wf = true → s.params.atomicity.conforming = true →
    s.pairKept b a V → s.issuesPairsWhole b a V → step s = .next t → t.pairKept b a V

/-- R49, R154. Under the non-conforming `WORD` a reader can be given either mixture of an old and a new value: with a writer of
the pair at `IR[1]` and a reader of it, some order of turns gives `n[31:16] :: o[15:0]`, another `o[31:16] :: n[15:0]`, and others
the two whole values; the bank holds the new value in the end, and the decode of the mixture is no error. -/
def Obligations.PairsCanBeTornUnderWord : Prop :=
  ∀ o n : Val32, ∀ r : Word × Word,
    r ∈ [(hiWord n, loWord o), (hiWord o, loWord n), (hiWord o, loWord o), (hiWord n, loWord n)] →
    ∃ turns t, Host.Core.run Sys2Proof.core 4 (State.tornScene .word o n turns) = .next t ∧
      t.requesters.map (·.returned) = [[], [.words [r.1, r.2]]] ∧
      t.readWord .ir 1 = hiWord n ∧ t.readWord .ir 2 = loWord n ∧ t.ended = true ∧
      responseOf (.decI32 2 (joinWords r.1 r.2)) = .ok (r.1 ++ r.2)

/-- R48. The same writer and reader under `PAIR` and under `FULL`: whatever the order of turns, the reader is given the old value
whole or the new value whole. -/
def Obligations.PairsAreWholeInTheSameScene : Prop :=
  ∀ (at_ : Atomicity) (o n : Val32) (turns : List Turn), at_.conforming = true →
    ∃ t, Host.Core.run Sys2Proof.core 2 (State.tornScene at_ o n turns) = .next t ∧ t.ended = true ∧
      (t.requesters.map (·.returned) = [[], [.words (wordsOf o)]] ∨
        t.requesters.map (·.returned) = [[], [.words (wordsOf n)]]) ∧
      t.readWord .ir 1 = hiWord n ∧ t.readWord .ir 2 = loWord n

/-! ### Field loads and stores (R110 to R115) -/

/-- R110, R111. `STI32` and `STF32` at a valid address take two turns and leave `B[a] = val[31:16]`, `B[a+1] = val[15:0]` and
every other word as it was. -/
def Obligations.FieldStoreLeavesHiThenLo : Prop :=
  ∀ (s : State) (who : Nat) (q : Requester) (k : ValueKind) (b : Bank) (a : Nat) (v : ValOperand) (p : Val32)
    (tmp : Name) (rest : List Line) (c c' : Nat),
    s.requesters[who]? = some q → q.inFlight = none → s.params.atomicity.conforming = true →
    q.program = (match k with | .int32 => Pseudo.sti32 b a v | .float32 => Pseudo.stf32 b a v).expand tmp ++ rest →
    evalVal q.names v = .ok p → a + 2 ≤ s.params.capacity →
    ∃ t, repeatTurns who [c, c'] s = .next t ∧ t.readWord b a = hiWord p ∧ t.readWord b (a + 1) = loWord p ∧
      (∀ b' x, b' ≠ b ∨ (x ≠ a ∧ x ≠ a + 1) → t.readWord b' x = s.readWord b' x) ∧
      (∃ q', t.requesters[who]? = some q' ∧ q'.program = rest ∧ q'.inFlight = none ∧ q'.fault = q.fault) ∧
      (∀ j, j ≠ who → t.requesters[j]? = s.requesters[j]?)

/-- R110. At the last address of a bank the store of a pair is refused whole: neither word is written, the hi word included, and
the requester is faulted by `AddressInvalid`. -/
def Obligations.FieldStorePastTheEndWritesNothing : Prop :=
  ∀ (s : State) (who : Nat) (q : Requester) (k : ValueKind) (b : Bank) (a : Nat) (v : ValOperand) (p : Val32)
    (tmp : Name) (rest : List Line) (c c' : Nat),
    s.requesters[who]? = some q → q.inFlight = none →
    q.program = (match k with | .int32 => Pseudo.sti32 b a v | .float32 => Pseudo.stf32 b a v).expand tmp ++ rest →
    evalVal q.names v = .ok p → s.params.capacity < a + 2 →
    ∃ t, repeatTurns who [c, c'] s = .next t ∧ t.memory = s.memory ∧
      (∃ q', t.requesters[who]? = some q' ∧ q'.fault = some .addressInvalid ∧ q'.program = rest) ∧
      (∀ j, j ≠ who → t.requesters[j]? = s.requesters[j]?)

/-- R112, R113. `LDI32` and `LDF32` at a valid address take two turns and bind the name to `B[a] :: B[a+1]`, the word at the
lower address most significant; FormatError cannot occur, and no word changes. -/
def Obligations.FieldLoadJoinsTheWords : Prop :=
  ∀ (s : State) (who : Nat) (q : Requester) (k : ValueKind) (b : Bank) (a : Nat) (d tmp : Name) (rest : List Line)
    (c c' : Nat),
    s.requesters[who]? = some q → q.inFlight = none → s.params.atomicity.conforming = true →
    q.program = (match k with | .int32 => Pseudo.ldi32 b a d | .float32 => Pseudo.ldf32 b a d).expand tmp ++ rest →
    a + 2 ≤ s.params.capacity →
    ∃ t, repeatTurns who [c, c'] s = .next t ∧ t.memory = s.memory ∧
      (∃ q', t.requesters[who]? = some q' ∧ q'.program = rest ∧ q'.inFlight = none ∧ q'.fault = q.fault ∧
        lookupName d q'.names = some (.val (s.readWord b a ++ s.readWord b (a + 1)))) ∧
      (∀ j, j ≠ who → t.requesters[j]? = s.requesters[j]?)

/-- R112, R113, R136. A load of a pair that runs past the end of a bank is refused whole before any decode: in one turn the
requester is faulted by `AddressInvalid`, no word is returned or changed, the decode is still in its program, and since it can
move no more the decode is never issued. -/
def Obligations.FieldLoadPastTheEndIssuesNoDecode : Prop :=
  ∀ (s : State) (who : Nat) (q : Requester) (k : ValueKind) (b : Bank) (a : Nat) (d tmp : Name) (rest : List Line)
    (c : Nat),
    s.requesters[who]? = some q → q.inFlight = none →
    q.program = (match k with | .int32 => Pseudo.ldi32 b a d | .float32 => Pseudo.ldf32 b a d).expand tmp ++ rest →
    s.params.capacity < a + 2 →
    ∃ t, takeTurn who c s = .next t ∧ t.memory = s.memory ∧ t.issuer = s.issuer ∧
      (∃ q', t.requesters[who]? = some q' ∧ q'.fault = some .addressInvalid ∧
        q'.returned = q.returned ++ [.addressInvalid] ∧ q'.names = q.names ∧
        q'.program = .dec k 2 (.elem tmp 0) (.elem tmp 1) d :: rest) ∧
      who ∉ t.runnable ∧ (∀ j, j ≠ who → t.requesters[j]? = s.requesters[j]?)

/-- R115. What a field store puts in, a field load of the same address gives back, of the same kind and across kinds, with no
other turn between. -/
def Obligations.FieldLoadAfterFieldStoreGivesTheValue : Prop :=
  ∀ (s : State) (who : Nat) (q : Requester) (k k' : ValueKind) (b : Bank) (a : Nat) (p : Val32) (d tmp tmp' : Name)
    (rest : List Line) (c₁ c₂ c₃ c₄ : Nat),
    s.requesters[who]? = some q → q.inFlight = none → s.params.atomicity.conforming = true →
    q.program =
      (match k with | .int32 => Pseudo.sti32 b a (.lit p) | .float32 => Pseudo.stf32 b a (.lit p)).expand tmp ++
      (match k' with | .int32 => Pseudo.ldi32 b a d | .float32 => Pseudo.ldf32 b a d).expand tmp' ++ rest →
    a + 2 ≤ s.params.capacity →
    ∃ t q', repeatTurns who [c₁, c₂, c₃, c₄] s = .next t ∧ t.requesters[who]? = some q' ∧
      lookupName d q'.names = some (.val p) ∧ q'.fault = q.fault ∧ q'.program = rest

/-- R115. The same with steps of other requesters anywhere between the requester's four turns: what a field store puts in, a
field load of the same address gives back, if no write unit to either word falls between the store's unit and the load's. Each of
the four turns completes wherever the steps before it have led. -/
def Obligations.FieldLoadAfterFieldStoreWithOtherTurnsBetween : Prop :=
  ∀ (s : State) (who : Nat) (q : Requester) (k k' : ValueKind) (b : Bank) (a : Nat) (p : Val32) (d tmp tmp' : Name)
    (rest : List Line) (n₁ n₂ n₃ : Nat),
    s.chosen = some who → s.requesters[who]? = some q → q.inFlight = none → s.params.atomicity.conforming = true →
    q.program =
      (match k with | .int32 => Pseudo.sti32 b a (.lit p) | .float32 => Pseudo.stf32 b a (.lit p)).expand tmp ++
      (match k' with | .int32 => Pseudo.ldi32 b a d | .float32 => Pseudo.ldf32 b a d).expand tmp' ++ rest →
    a + 2 ≤ s.params.capacity →
    ∃ s₁, step s = .next s₁ ∧ ∀ s₂, State.othersTake who (fun _ => True) n₁ s₁ s₂ → s₂.chosen = some who →
    ∃ s₃, step s₂ = .next s₃ ∧ ∀ s₄, State.othersTake who (State.sparesPair b a) n₂ s₃ s₄ → s₄.chosen = some who →
    ∃ s₅, step s₄ = .next s₅ ∧ ∀ s₆, State.othersTake who (fun _ => True) n₃ s₅ s₆ → s₆.chosen = some who →
    ∃ t q', step s₆ = .next t ∧ t.requesters[who]? = some q' ∧ lookupName d q'.names = some (.val p) ∧
      q'.fault = q.fault ∧ q'.program = rest

/-- R114. `STW` and `LDW` move one raw word in one turn, under every atomicity; no codec instruction takes part. -/
def Obligations.RawWordsMoveUnchanged : Prop :=
  ∀ (s : State) (who : Nat) (q : Requester) (b : Bank) (a : Nat) (d tmp : Name) (rest : List Line) (c : Nat),
    s.requesters[who]? = some q → q.inFlight = none → a + 1 ≤ s.params.capacity →
    (∀ o w, q.program = (Pseudo.stw b a o).expand tmp ++ rest → evalWord q.names o = .ok w →
      ∃ t, takeTurn who c s = .next t ∧ t.readWord b a = w ∧
        (∀ b' x, b' ≠ b ∨ x ≠ a → t.readWord b' x = s.readWord b' x)) ∧
    (q.program = (Pseudo.ldw b a d).expand tmp ++ rest →
      ∃ t q', takeTurn who c s = .next t ∧ t.memory = s.memory ∧ t.requesters[who]? = some q' ∧
        lookupName d q'.names = some (.words [s.readWord b a]) ∧
        q'.returned = q.returned ++ [.words [s.readWord b a]])

/-! ### The address map (R29, R30, R117) -/

/-- R28, R29, R30, R46. Every field lies within the least capacity there may be, every pair starts at an odd address, no word
belongs to two fields, and there is no field in `DI` or `CO`. -/
def Obligations.AddressMapFieldsAreDisjoint : Prop :=
  (∀ f : FieldId, f.field.addr + f.field.width ≤ 13 ∧ (f.field.width = 2 → f.field.addr % 2 = 1) ∧
    (f.field.bank = .hr ∨ f.field.bank = .ir)) ∧
  (∀ (f g : FieldId) (b : Bank) (a : Nat), f.field.holds b a = true → g.field.holds b a = true → f = g) ∧
  (∀ (f : FieldId) (a : Nat), fieldAt f.field.bank a = some f ↔ f.field.addr ≤ a ∧ a < f.field.addr + f.field.width)

/-- R117. The 13 words of the telemetry frame, written from `IR[0]`, put the flag at `IR[0]` and each field's `[hi, lo]` where the
address map has that field. -/
def Obligations.TelemetryFrameFillsTheMap : Prop :=
  ∀ (flag : Word) (t1 t2 : PumpTelemetry),
    (telemetryFrame flag t1 t2).length = 13 ∧ (telemetryFrame flag t1 t2)[FieldId.controlEcho.field.addr]? = some flag ∧
    ∀ x ∈ [(FieldId.pump1Speed, t1.speed), (.pump1Power, t1.power), (.pump1Outflow, t1.outflow),
        (.pump2Speed, t2.speed), (.pump2Power, t2.power), (.pump2Outflow, t2.outflow)],
      (telemetryFrame flag t1 t2)[x.1.field.addr]? = some (hiWord x.2) ∧
      (telemetryFrame flag t1 t2)[x.1.field.addr + 1]? = some (loWord x.2)

/-! ### Reset, invariants and the end of a run (R34, R137, R150, R151, R160, R161) -/

/-- R34, R151. After reset every word of every bank is `BANK_INIT`, which nothing constrains. The rest is the model's choice:
the default capacity and atomicity (log 4, log 5), two requesters with no program (log 7). -/
def Obligations.ResetLeavesBankInit : Prop :=
  (∀ b a, State.reset.readWord b a = Config.bankInit b a) ∧
  State.reset.params.capacity = 100 ∧ State.reset.params.atomicity = .pair ∧
  State.reset.noneFaulted = true ∧ State.reset.ended = true ∧ State.reset.wf = true

/-- A well-formed state always answers a next state, which is well-formed again: the memory keeps its canonical form, a faulted
requester has nothing in flight, every program is well-formed, and the machine itself never faults or refuses. -/
def Obligations.WellFormedStatesStepToWellFormedStates : Prop :=
  ∀ s : State, s.wf = true → ∃ t, step s = .next t ∧ t.wf = true

/-- R161. The run has ended exactly when no requester can move, and from then on nothing changes. -/
def Obligations.EndedRunsStayAsTheyAre : Prop :=
  ∀ s : State, s.wf = true → ((s.ended = true ↔ s.chosen = none) ∧ (s.ended = true → step s = .next s))

/-- R160. Every step of a run that has not ended leaves less work: every command is answered and every valid invocation has all
its units performed. -/
def Obligations.EveryStepLeavesLessWork : Prop :=
  ∀ s t : State, s.wf = true → s.ended = false → step s = .next t → t.work < s.work

/-- R160, R161. Every run of finite programs ends, in at most as many steps as the work it began with, whatever the order of
turns. -/
def Obligations.EveryRunEnds : Prop :=
  ∀ s : State, s.wf = true → ∃ t, Host.Core.run Sys2Proof.core s.work s = .next t ∧ t.ended = true ∧ t.wf = true
end

