-- ==== Sys2Proof/Laws/State.lean ====
section
/-! SUPPORT. One lemma per field per update of the state, true by rfl, so that no proof unfolds a record update. -/

namespace Sys2Proof.Machine

/-! ### Storing a word -/

@[simp] theorem writeWord_params (s : State) (b : Bank) (a : Nat) (w : Word) : (s.writeWord b a w).params = s.params := rfl
@[simp] theorem writeWord_memory (s : State) (b : Bank) (a : Nat) (w : Word) :
    (s.writeWord b a w).memory = s.memory.store s.params b a w := rfl
@[simp] theorem writeWord_requesters (s : State) (b : Bank) (a : Nat) (w : Word) :
    (s.writeWord b a w).requesters = s.requesters := rfl
@[simp] theorem writeWord_issuer (s : State) (b : Bank) (a : Nat) (w : Word) : (s.writeWord b a w).issuer = s.issuer := rfl
@[simp] theorem writeWord_turns (s : State) (b : Bank) (a : Nat) (w : Word) : (s.writeWord b a w).turns = s.turns := rfl
@[simp] theorem writeWord_draws (s : State) (b : Bank) (a : Nat) (w : Word) : (s.writeWord b a w).draws = s.draws := rfl

/-! ### Changing a requester -/

@[simp] theorem modifyRequester_params (s : State) (i : Nat) (f : Requester → Requester) :
    (s.modifyRequester i f).params = s.params := rfl
@[simp] theorem modifyRequester_memory (s : State) (i : Nat) (f : Requester → Requester) :
    (s.modifyRequester i f).memory = s.memory := rfl
@[simp] theorem modifyRequester_requesters (s : State) (i : Nat) (f : Requester → Requester) :
    (s.modifyRequester i f).requesters = s.requesters.modify i f := rfl
@[simp] theorem modifyRequester_issuer (s : State) (i : Nat) (f : Requester → Requester) :
    (s.modifyRequester i f).issuer = s.issuer := rfl
@[simp] theorem modifyRequester_turns (s : State) (i : Nat) (f : Requester → Requester) :
    (s.modifyRequester i f).turns = s.turns := rfl
@[simp] theorem modifyRequester_draws (s : State) (i : Nat) (f : Requester → Requester) :
    (s.modifyRequester i f).draws = s.draws := rfl

/-! ### A command at the ports, and a turn spent -/

@[simp] theorem atPorts_params (s : State) (who : Nat) (d : Name) : (s.atPorts who d).params = s.params := rfl
@[simp] theorem atPorts_memory (s : State) (who : Nat) (d : Name) : (s.atPorts who d).memory = s.memory := rfl
@[simp] theorem atPorts_requesters (s : State) (who : Nat) (d : Name) :
    (s.atPorts who d).requesters = s.requesters.modify who (·.await d) := rfl
@[simp] theorem atPorts_issuer (s : State) (who : Nat) (d : Name) : (s.atPorts who d).issuer = who := rfl
@[simp] theorem atPorts_turns (s : State) (who : Nat) (d : Name) : (s.atPorts who d).turns = s.turns := rfl
@[simp] theorem atPorts_draws (s : State) (who : Nat) (d : Name) : (s.atPorts who d).draws = s.draws := rfl

@[simp] theorem spendTurn_params (s : State) : s.spendTurn.params = s.params := rfl
@[simp] theorem spendTurn_memory (s : State) : s.spendTurn.memory = s.memory := rfl
@[simp] theorem spendTurn_requesters (s : State) : s.spendTurn.requesters = s.requesters := rfl
@[simp] theorem spendTurn_issuer (s : State) : s.spendTurn.issuer = s.issuer := rfl
@[simp] theorem spendTurn_turns (s : State) : s.spendTurn.turns = s.turns.tail := rfl
@[simp] theorem spendTurn_draws (s : State) : s.spendTurn.draws = s.draws + 1 := rfl

/-! ### The updates of a requester -/

@[simp] theorem withProgram_role (q : Requester) (l : List Line) : (q.withProgram l).role = q.role := rfl
@[simp] theorem withProgram_program (q : Requester) (l : List Line) : (q.withProgram l).program = l := rfl
@[simp] theorem withProgram_names (q : Requester) (l : List Line) : (q.withProgram l).names = q.names := rfl
@[simp] theorem withProgram_dest (q : Requester) (l : List Line) : (q.withProgram l).dest = q.dest := rfl
@[simp] theorem withProgram_inFlight (q : Requester) (l : List Line) : (q.withProgram l).inFlight = q.inFlight := rfl
@[simp] theorem withProgram_returned (q : Requester) (l : List Line) : (q.withProgram l).returned = q.returned := rfl
@[simp] theorem withProgram_fault (q : Requester) (l : List Line) : (q.withProgram l).fault = q.fault := rfl

@[simp] theorem await_role (q : Requester) (d : Name) : (q.await d).role = q.role := rfl
@[simp] theorem await_program (q : Requester) (d : Name) : (q.await d).program = q.program := rfl
@[simp] theorem await_names (q : Requester) (d : Name) : (q.await d).names = q.names := rfl
@[simp] theorem await_dest (q : Requester) (d : Name) : (q.await d).dest = d := rfl
@[simp] theorem await_inFlight (q : Requester) (d : Name) : (q.await d).inFlight = q.inFlight := rfl
@[simp] theorem await_returned (q : Requester) (d : Name) : (q.await d).returned = q.returned := rfl
@[simp] theorem await_fault (q : Requester) (d : Name) : (q.await d).fault = q.fault := rfl

@[simp] theorem withInFlight_role (q : Requester) (v : Invocation) : (q.withInFlight v).role = q.role := rfl
@[simp] theorem withInFlight_program (q : Requester) (v : Invocation) : (q.withInFlight v).program = q.program := rfl
@[simp] theorem withInFlight_names (q : Requester) (v : Invocation) : (q.withInFlight v).names = q.names := rfl
@[simp] theorem withInFlight_dest (q : Requester) (v : Invocation) : (q.withInFlight v).dest = q.dest := rfl
@[simp] theorem withInFlight_inFlight (q : Requester) (v : Invocation) : (q.withInFlight v).inFlight = some v := rfl
@[simp] theorem withInFlight_returned (q : Requester) (v : Invocation) : (q.withInFlight v).returned = q.returned := rfl
@[simp] theorem withInFlight_fault (q : Requester) (v : Invocation) : (q.withInFlight v).fault = q.fault := rfl

@[simp] theorem receive_role (q : Requester) (r : Returned) (v : Value) : (q.receive r v).role = q.role := rfl
@[simp] theorem receive_program (q : Requester) (r : Returned) (v : Value) : (q.receive r v).program = q.program := rfl
@[simp] theorem receive_names (q : Requester) (r : Returned) (v : Value) :
    (q.receive r v).names = (q.dest, v) :: q.names := rfl
@[simp] theorem receive_dest (q : Requester) (r : Returned) (v : Value) : (q.receive r v).dest = q.dest := rfl
@[simp] theorem receive_inFlight (q : Requester) (r : Returned) (v : Value) : (q.receive r v).inFlight = q.inFlight := rfl
@[simp] theorem receive_returned (q : Requester) (r : Returned) (v : Value) :
    (q.receive r v).returned = q.returned ++ [r] := rfl
@[simp] theorem receive_fault (q : Requester) (r : Returned) (v : Value) : (q.receive r v).fault = q.fault := rfl

@[simp] theorem settle_role (q : Requester) : q.settle.role = q.role := rfl
@[simp] theorem settle_program (q : Requester) : q.settle.program = q.program := rfl
@[simp] theorem settle_names (q : Requester) : q.settle.names = q.names := rfl
@[simp] theorem settle_dest (q : Requester) : q.settle.dest = q.dest := rfl
@[simp] theorem settle_inFlight (q : Requester) : q.settle.inFlight = none := rfl
@[simp] theorem settle_returned (q : Requester) : q.settle.returned = q.returned := rfl
@[simp] theorem settle_fault (q : Requester) : q.settle.fault = q.fault := rfl

@[simp] theorem fail_role (q : Requester) (c : Cause) : (q.fail c).role = q.role := rfl
@[simp] theorem fail_program (q : Requester) (c : Cause) : (q.fail c).program = q.program := rfl
@[simp] theorem fail_names (q : Requester) (c : Cause) : (q.fail c).names = q.names := rfl
@[simp] theorem fail_dest (q : Requester) (c : Cause) : (q.fail c).dest = q.dest := rfl
@[simp] theorem fail_inFlight (q : Requester) (c : Cause) : (q.fail c).inFlight = q.inFlight := rfl
@[simp] theorem fail_returned (q : Requester) (c : Cause) : (q.fail c).returned = q.returned ++ [c.delivered] := rfl
@[simp] theorem fail_fault (q : Requester) (c : Cause) : (q.fail c).fault = some c := rfl

/-! ### The update of one bank's list -/

@[simp] theorem cells_withCells (m : Memory) (b b' : Bank) (c : List WordCell) :
    (m.withCells b c).cells b' = if b' = b then c else m.cells b' := by
  cases b <;> cases b' <;> rfl

/-! ### Reading a word is unmoved by what is no store -/

@[simp] theorem modifyRequester_readWord (s : State) (i : Nat) (f : Requester → Requester) (b : Bank) (a : Nat) :
    (s.modifyRequester i f).readWord b a = s.readWord b a := rfl
@[simp] theorem atPorts_readWord (s : State) (who : Nat) (d : Name) (b : Bank) (a : Nat) :
    (s.atPorts who d).readWord b a = s.readWord b a := rfl
@[simp] theorem spendTurn_readWord (s : State) (b : Bank) (a : Nat) : s.spendTurn.readWord b a = s.readWord b a := rfl

end Sys2Proof.Machine
end

