-- ==== Sys2Proof/Laws/Memory.lean ====
section
/-! SUPPORT. The laws of the Register Bank: a load after a store, and that every store keeps the canonical form. -/

namespace Sys2Proof.Machine

/-! ### One bank's list -/

theorem lookupCell_insertCell (a a' : Nat) (w : Word) (c : List WordCell) :
    lookupCell a' (insertCell a w c) = if a' = a then some w else lookupCell a' c := by
  induction c with
  | nil => simp [insertCell, lookupCell]
  | cons h t ih =>
    obtain ⟨x, v⟩ := h
    simp only [insertCell]
    split
    · simp [lookupCell]
    · split
      · rename_i hx
        subst hx; by_cases h : a' = a <;> simp [lookupCell, h]
      · by_cases h : a' = x
        · subst h; simp [lookupCell, Ne.symm ‹_›]
        · simp [lookupCell, h, ih]

theorem lookupCell_eraseCell (a a' : Nat) (c : List WordCell) :
    lookupCell a' (eraseCell a c) = if a' = a then none else lookupCell a' c := by
  induction c with
  | nil => simp [eraseCell, lookupCell]
  | cons h t ih =>
    obtain ⟨x, v⟩ := h
    simp only [eraseCell]
    split
    · subst_vars; rw [ih]; by_cases h : a' = x <;> simp [lookupCell, h]
    · by_cases h : a' = x
      · subst h; simp [lookupCell, Ne.symm ‹_›]
      · simp [lookupCell, h, ih]

/-- The addresses of a list are strictly rising, as a statement about all its pairs. -/
theorem risingCells_iff (c : List WordCell) : risingCells c = true ↔ c.Pairwise (fun x y => x.1 < y.1) := by
  induction c with
  | nil => simp [risingCells]
  | cons h t ih =>
    cases t with
    | nil => simp [risingCells]
    | cons g r =>
      obtain ⟨x, v⟩ := h; obtain ⟨y, w⟩ := g
      simp only [risingCells, Bool.and_eq_true, decide_eq_true_eq, ih]
      rw [List.pairwise_cons (a := (x, v))]
      constructor
      · rintro ⟨hxy, hp⟩
        refine ⟨?_, hp⟩
        intro z hz
        rcases List.mem_cons.1 hz with rfl | hz
        · exact hxy
        · exact Nat.lt_trans hxy ((List.pairwise_cons.1 hp).1 z hz)
      · rintro ⟨h1, hp⟩
        exact ⟨h1 _ (List.mem_cons_self ..), hp⟩

theorem mem_insertCell (a : Nat) (w : Word) (c : List WordCell) (x : WordCell) (h : x ∈ insertCell a w c) :
    x = (a, w) ∨ x ∈ c := by
  induction c with
  | nil => simpa [insertCell] using h
  | cons g t ih =>
    obtain ⟨y, v⟩ := g
    simp only [insertCell] at h
    split at h
    · simpa using h
    · split at h
      · rcases List.mem_cons.1 h with h | h <;> simp [h]
      · rcases List.mem_cons.1 h with h | h
        · simp [h]
        · rcases ih h with h | h <;> simp [h]

theorem mem_eraseCell (a : Nat) (c : List WordCell) (x : WordCell) (h : x ∈ eraseCell a c) : x ∈ c := by
  induction c with
  | nil => simp [eraseCell] at h
  | cons g t ih =>
    obtain ⟨y, v⟩ := g
    simp only [eraseCell] at h
    split at h
    · exact List.mem_cons_of_mem _ (ih h)
    · rcases List.mem_cons.1 h with h | h
      · simp [h]
      · exact List.mem_cons_of_mem _ (ih h)

theorem rising_insertCell (a : Nat) (w : Word) (c : List WordCell) (h : risingCells c = true) :
    risingCells (insertCell a w c) = true := by
  rw [risingCells_iff] at *
  induction c with
  | nil => simp [insertCell]
  | cons g t ih =>
    obtain ⟨y, v⟩ := g
    have ⟨h1, h2⟩ := List.pairwise_cons.1 h
    simp only [insertCell]
    split
    · rename_i hlt
      refine List.pairwise_cons.2 ⟨?_, h⟩
      intro z hz
      rcases List.mem_cons.1 hz with rfl | hz
      · exact hlt
      · exact Nat.lt_trans hlt (h1 z hz)
    · split
      · subst_vars; exact List.pairwise_cons.2 ⟨h1, h2⟩
      · refine List.pairwise_cons.2 ⟨?_, ih h2⟩
        intro z hz
        rcases mem_insertCell _ _ _ _ hz with rfl | hz
        · show y < a
          omega
        · exact h1 z hz

theorem rising_eraseCell (a : Nat) (c : List WordCell) (h : risingCells c = true) : risingCells (eraseCell a c) = true := by
  rw [risingCells_iff] at *
  induction c with
  | nil => simp [eraseCell]
  | cons g t ih =>
    obtain ⟨y, v⟩ := g
    have ⟨h1, h2⟩ := List.pairwise_cons.1 h
    simp only [eraseCell]
    split
    · exact ih h2
    · exact List.pairwise_cons.2 ⟨fun z hz => h1 z (mem_eraseCell _ _ _ hz), ih h2⟩

/-! ### The four banks -/

/-- What a load sees after a store: the word stored, at its own address of its own bank, and what was there before anywhere
else. -/
theorem load_store (p : Params) (m : Memory) (b b' : Bank) (a a' : Nat) (w : Word) :
    (m.store p b a w).load p b' a' = if b' = b ∧ a' = a then w else m.load p b' a' := by
  unfold Memory.store Memory.load
  by_cases hb : b' = b
  · subst hb
    by_cases hw : w = p.initWord b' a
    · rw [if_pos hw]
      simp only [cells_withCells, if_true, lookupCell_eraseCell, true_and]
      by_cases ha : a' = a <;> simp [ha, hw]
    · rw [if_neg hw]
      simp only [cells_withCells, if_true, lookupCell_insertCell, true_and]
      by_cases ha : a' = a <;> simp [ha]
  · split <;> simp [hb]

theorem readWord_writeWord (s : State) (b b' : Bank) (a a' : Nat) (w : Word) :
    (s.writeWord b a w).readWord b' a' = if b' = b ∧ a' = a then w else s.readWord b' a' :=
  load_store ..

/-- The canonical form, bank by bank. -/
theorem memory_wf_iff (p : Params) (m : Memory) :
    m.wf p = true ↔ ∀ b, risingCells (m.cells b) = true ∧
      ∀ c ∈ m.cells b, c.1 < p.capacity ∧ c.2 ≠ p.initWord b c.1 := by
  simp only [Memory.wf, List.all_eq_true, Bool.and_eq_true, decide_eq_true_eq]
  constructor
  · intro h b
    exact h b (by cases b <;> simp)
  · intro h b _
    exact h b

theorem empty_wf (p : Params) : Memory.empty.wf p = true := by
  rw [memory_wf_iff]
  intro b
  cases b <;> simp [Memory.empty, Memory.cells, risingCells]

/-- A store within the capacity keeps the canonical form. -/
theorem store_wf (p : Params) (m : Memory) (b : Bank) (a : Nat) (w : Word) (h : m.wf p = true) (ha : a < p.capacity) :
    (m.store p b a w).wf p = true := by
  rw [memory_wf_iff] at *
  intro b'
  unfold Memory.store
  by_cases hb : b' = b
  · subst hb
    obtain ⟨h1, h2⟩ := h b'
    split
    · simp only [cells_withCells, if_true]
      exact ⟨rising_eraseCell _ _ h1, fun c hc => h2 c (mem_eraseCell _ _ _ hc)⟩
    · rename_i hw
      simp only [cells_withCells, if_true]
      refine ⟨rising_insertCell _ _ _ h1, fun c hc => ?_⟩
      rcases mem_insertCell _ _ _ _ hc with rfl | hc
      · exact ⟨ha, hw⟩
      · exact h2 c hc
  · split <;> simpa [hb] using h b'

/-! ### The words of one unit -/

@[simp] theorem writeCells_params (b : Bank) (c : List WordCell) (s : State) : (s.writeCells b c).params = s.params := by
  induction c generalizing s with
  | nil => rfl
  | cons h t ih => obtain ⟨a, w⟩ := h; exact ih _

@[simp] theorem writeCells_requesters (b : Bank) (c : List WordCell) (s : State) :
    (s.writeCells b c).requesters = s.requesters := by
  induction c generalizing s with
  | nil => rfl
  | cons h t ih => obtain ⟨a, w⟩ := h; exact ih _

@[simp] theorem writeCells_issuer (b : Bank) (c : List WordCell) (s : State) : (s.writeCells b c).issuer = s.issuer := by
  induction c generalizing s with
  | nil => rfl
  | cons h t ih => obtain ⟨a, w⟩ := h; exact ih _

@[simp] theorem writeCells_turns (b : Bank) (c : List WordCell) (s : State) : (s.writeCells b c).turns = s.turns := by
  induction c generalizing s with
  | nil => rfl
  | cons h t ih => obtain ⟨a, w⟩ := h; exact ih _

@[simp] theorem writeCells_draws (b : Bank) (c : List WordCell) (s : State) : (s.writeCells b c).draws = s.draws := by
  induction c generalizing s with
  | nil => rfl
  | cons h t ih => obtain ⟨a, w⟩ := h; exact ih _

theorem lookupCell_none_of_lt (a : Nat) (c : List WordCell) (h : ∀ x ∈ c, a < x.1) : lookupCell a c = none := by
  induction c with
  | nil => rfl
  | cons g t ih =>
    obtain ⟨y, v⟩ := g
    have hy := h (y, v) (List.mem_cons_self ..)
    simp only [lookupCell]
    rw [if_neg (by simp at hy; omega)]
    exact ih fun x hx => h x (List.mem_cons_of_mem _ hx)

/-- What a load sees after the words of one unit are stored: the unit's word where the unit has one, else what was there. -/
theorem readWord_writeCells (b b' : Bank) (a' : Nat) (c : List WordCell) (s : State) (h : risingCells c = true) :
    (s.writeCells b c).readWord b' a' =
      if b' = b then (lookupCell a' c).getD (s.readWord b' a') else s.readWord b' a' := by
  rw [risingCells_iff] at h
  induction c generalizing s with
  | nil => simp [State.writeCells, lookupCell]
  | cons g t ih =>
    obtain ⟨a, w⟩ := g
    have ⟨h1, h2⟩ := List.pairwise_cons.1 h
    rw [State.writeCells, ih _ h2, readWord_writeWord]
    by_cases hb : b' = b
    · subst hb
      by_cases ha : a' = a
      · subst ha
        simp [lookupCell, lookupCell_none_of_lt a' t (fun x hx => h1 x hx)]
      · simp [lookupCell, ha]
    · simp [hb]

theorem writeCells_wf (b : Bank) (c : List WordCell) (s : State) (h : s.memory.wf s.params = true)
    (hc : ∀ x ∈ c, x.1 < s.params.capacity) : (s.writeCells b c).memory.wf s.params = true := by
  induction c generalizing s with
  | nil => exact h
  | cons g t ih =>
    obtain ⟨a, w⟩ := g
    have := ih (s.writeWord b a w) (store_wf _ _ _ _ _ h (hc (a, w) (List.mem_cons_self ..)))
      (fun x hx => hc x (List.mem_cons_of_mem _ hx))
    exact this

end Sys2Proof.Machine
end

