-- ==== Sys2Proof/Laws/Codec.lean ====
section
/-! SUPPORT. The laws of the split and the join of a value, and what each instruction does, said once. -/

namespace Sys2Proof.Machine

@[simp] theorem joinWords_hi_lo (p : Val32) : joinWords (hiWord p) (loWord p) = p := by
  apply BitVec.eq_of_getLsbD_eq
  intro i hi
  simp only [joinWords, hiWord, loWord, BitVec.getLsbD_append, BitVec.getLsbD_extractLsb']
  by_cases h : i < 16
  · simp [h]
  · simp only [h, if_false]
    rw [show 16 + (i - 16) = i by omega]
    simp only [Bool.and_eq_right_iff_imp, decide_eq_true_eq]
    intro _
    omega

@[simp] theorem hiWord_joinWords (w0 w1 : Word) : hiWord (joinWords w0 w1) = w0 := by
  apply BitVec.eq_of_getElem_eq
  intro i hi
  simp only [joinWords, hiWord, BitVec.getElem_extractLsb', BitVec.getLsbD_append]
  rw [if_neg (by omega)]
  simp [BitVec.getLsbD_eq_getElem (show i < 16 from hi)]

@[simp] theorem loWord_joinWords (w0 w1 : Word) : loWord (joinWords w0 w1) = w1 := by
  apply BitVec.eq_of_getElem_eq
  intro i hi
  simp only [joinWords, loWord, BitVec.getElem_extractLsb', BitVec.getLsbD_append]
  rw [if_pos (by omega)]
  simp [BitVec.getLsbD_eq_getElem (show i < 16 from hi)]

/-- The unsigned reading of a pair (R107). -/
theorem toNat_joinWords (w0 w1 : Word) : (joinWords w0 w1).toNat = w0.toNat * 65536 + w1.toNat := by
  have h := w1.isLt
  rw [joinWords, BitVec.toNat_append, Nat.shiftLeft_eq, Nat.mul_comm, ← Nat.two_pow_add_eq_or_of_lt h, Nat.mul_comm]

@[simp] theorem encodeResponse_eq (p : Val32) : encodeResponse p = .ok p := by
  simp [encodeResponse]

@[simp] theorem decodeResponse_two (p : Val32) : decodeResponse 2#8 p = .ok p := by
  simp [decodeResponse, lengthErr]

theorem decodeResponse_of_ne (len : BitVec 8) (p : Val32) (h : len ≠ 2#8) : decodeResponse len p = .formatError := by
  simp [decodeResponse, lengthErr, h]

/-- What every instruction does: the response of the pure unit goes to the requester at the ports, and the machine goes on. -/
theorem exec_eq_deliver (i : Instr) (s : State) : exec i s = .next (s.deliver (responseOf i) (boundValue i)) := by
  cases i <;> rfl

theorem deliver_ok (s : State) (p : Val32) (f : Val32 → Value) :
    s.deliver (.ok p) f = s.modifyRequester s.issuer (·.receive (.response (.ok p)) (f p)) := rfl

theorem deliver_formatError (s : State) (f : Val32 → Value) :
    s.deliver .formatError f = s.modifyRequester s.issuer (·.fail .formatError) := rfl

/-- A delivery changes one requester: it receives the answer, or it fails. -/
theorem deliver_cases (s : State) (r : Response) (f : Val32 → Value) :
    (∃ p, r = .ok p ∧ s.deliver r f = s.modifyRequester s.issuer (·.receive (.response (.ok p)) (f p))) ∨
      (r = .formatError ∧ s.deliver r f = s.modifyRequester s.issuer (·.fail .formatError)) := by
  cases r with
  | ok p => exact .inl ⟨p, rfl, rfl⟩
  | formatError => exact .inr ⟨rfl, rfl⟩

/-- What a command does when it is issued: one requester changes, the issuer, and the ports say whose command it was. -/
theorem issue_cases (who : Nat) (dest : Name) (i : Instr) (s : State) :
    (∃ p, responseOf i = .ok p ∧
        issue who dest i s =
          .next ((s.atPorts who dest).modifyRequester who
            (·.receive (.response (.ok p)) (boundValue i p)))) ∨
      (responseOf i = .formatError ∧
        issue who dest i s = .next ((s.atPorts who dest).modifyRequester who (·.fail .formatError))) := by
  unfold issue
  rw [exec_eq_deliver]
  rcases deliver_cases (s.atPorts who dest) (responseOf i) (boundValue i) with ⟨p, h, e⟩ | ⟨h, e⟩
  · exact .inl ⟨p, h, by rw [e, atPorts_issuer]⟩
  · exact .inr ⟨h, by rw [e, atPorts_issuer]⟩

end Sys2Proof.Machine
end

