-- ==== Sys2Proof/Laws/Invocations.lean ====
section
/-! SUPPORT. What a unit of an invocation does, said once, and the laws of the units of a request. -/

namespace Sys2Proof.Machine

/-! ### Cells taken by a read -/

/-- Two lists with strictly rising addresses that list the same words are the same list. -/
theorem rising_ext (c c' : List WordCell) (h : risingCells c = true) (h' : risingCells c' = true)
    (hl : ∀ x, lookupCell x c = lookupCell x c') : c = c' := by
  rw [risingCells_iff] at h h'
  induction c generalizing c' with
  | nil =>
    cases c' with
    | nil => rfl
    | cons g t => obtain ⟨y, v⟩ := g; simpa [lookupCell] using hl y
  | cons g t ih =>
    obtain ⟨x, w⟩ := g
    have ⟨hx, ht⟩ := List.pairwise_cons.1 h
    cases c' with
    | nil => simpa [lookupCell] using hl x
    | cons g' t' =>
      obtain ⟨y, v⟩ := g'
      have ⟨hy, ht'⟩ := List.pairwise_cons.1 h'
      have hxy : x = y := by
        rcases Nat.lt_trichotomy x y with hlt | he | hgt
        · have := hl x
          rw [lookupCell_none_of_lt x ((y, v) :: t')] at this
          · simp [lookupCell] at this
          · intro z hz
            rcases List.mem_cons.1 hz with rfl | hz
            · exact hlt
            · exact Nat.lt_trans hlt (hy z hz)
        · exact he
        · have := hl y
          rw [lookupCell_none_of_lt y ((x, w) :: t)] at this
          · simp [lookupCell] at this
          · intro z hz
            rcases List.mem_cons.1 hz with rfl | hz
            · exact hgt
            · exact Nat.lt_trans hgt (hx z hz)
      subst hxy
      have hw := hl x
      simp only [lookupCell, if_true, Option.some.injEq] at hw
      subst hw
      congr 1
      refine ih t' ht ht' fun z => ?_
      have hz := hl z
      simp only [lookupCell] at hz
      split at hz
      · subst_vars
        rw [lookupCell_none_of_lt _ _ (fun u hu => hx u hu), lookupCell_none_of_lt _ _ (fun u hu => hy u hu)]
      · exact hz

theorem gather_rising (s : State) (b : Bank) (u : List Nat) (got : List WordCell) (h : risingCells got = true) :
    risingCells (s.gather b u got) = true := by
  induction u generalizing got with
  | nil => exact h
  | cons a t ih => exact ih _ (rising_insertCell _ _ _ h)

/-- What a gathered list holds: the words of the unit, and what was taken before at other addresses. -/
theorem lookupCell_gather (s : State) (b : Bank) (u : List Nat) (got : List WordCell) (x : Nat) :
    lookupCell x (s.gather b u got) = if x ∈ u then some (s.readWord b x) else lookupCell x got := by
  induction u generalizing got with
  | nil => simp [State.gather]
  | cons a t ih =>
    rw [State.gather, ih, lookupCell_insertCell]
    by_cases hx : x = a
    · subst hx; simp
    · simp [hx]

theorem lookupCell_map (u : List Nat) (r : Nat → Word) (x : Nat) :
    lookupCell x (u.map fun y => (y, r y)) = if x ∈ u then some (r x) else none := by
  induction u with
  | nil => simp [lookupCell]
  | cons a t ih =>
    by_cases hx : x = a
    · subst hx; simp [lookupCell]
    · simp [lookupCell, hx, ih]

theorem rising_range (a n : Nat) (r : Nat → Word) :
    risingCells ((List.range' a n).map fun y => (y, r y)) = true := by
  rw [risingCells_iff, List.pairwise_map]
  exact List.pairwise_lt_range' (s := a) (n := n)

/-- All the words of a request, once every one of them has been taken. -/
theorem gather_all (s : State) (b : Bank) (u : List Nat) (got : List WordCell) (a n : Nat)
    (h : risingCells got = true)
    (hl : ∀ x, lookupCell x got = if x ∈ List.range' a n ∧ x ∉ u then some (s.readWord b x) else none)
    (hu : ∀ x ∈ u, x ∈ List.range' a n) :
    (s.gather b u got).map Prod.snd = (List.range' a n).map fun x => s.readWord b x := by
  have := rising_ext (s.gather b u got) ((List.range' a n).map fun y => (y, s.readWord b y)) (gather_rising _ _ _ _ h)
    (rising_range a n _) (fun x => by
      rw [lookupCell_gather, lookupCell_map, hl]
      by_cases hx : x ∈ u
      · simp only [hx, if_true]; rw [if_pos (hu x hx)]
      · simp [hx])
  rw [this, List.map_map]
  rfl

/-! ### Cells to be stored by a write -/

theorem lookupCell_cellsOfUnit (u : List Nat) (c : List WordCell) (x : Nat) :
    lookupCell x (cellsOfUnit u c) = if x ∈ u then lookupCell x c else none := by
  induction c with
  | nil => simp [cellsOfUnit, lookupCell]
  | cons g t ih =>
    obtain ⟨y, v⟩ := g
    unfold cellsOfUnit at *
    rw [List.filter_cons]
    by_cases hy : y ∈ u
    · rw [if_pos (by simpa using hy)]
      simp only [lookupCell, ih]
      by_cases hx : x = y
      · subst hx; simp [hy]
      · simp [hx]
    · rw [if_neg (by simpa using hy), ih]
      by_cases hx : x = y
      · subst hx; simp [hy]
      · simp [lookupCell, hx]

theorem rising_cellsOfUnit (u : List Nat) (c : List WordCell) (h : risingCells c = true) :
    risingCells (cellsOfUnit u c) = true := by
  rw [risingCells_iff] at *
  exact h.filter _

theorem rising_zip (a : Nat) (ws : List Word) : risingCells ((List.range' a ws.length).zip ws) = true := by
  rw [risingCells_iff]
  induction ws generalizing a with
  | nil => simp
  | cons w t ih =>
    simp only [List.length_cons, List.range'_succ, List.zip_cons_cons]
    refine List.pairwise_cons.2 ⟨?_, ih _⟩
    intro z hz
    have := (List.of_mem_zip (a := z.1) (b := z.2) hz).1
    simp only [List.mem_range'_1] at this
    show a < z.1
    omega

theorem lookupCell_zip (a : Nat) (ws : List Word) (x : Nat) :
    lookupCell x ((List.range' a ws.length).zip ws) = if a ≤ x then ws[x - a]? else none := by
  induction ws generalizing a with
  | nil => simp [lookupCell]
  | cons w t ih =>
    simp only [List.length_cons, List.range'_succ, List.zip_cons_cons, lookupCell, ih]
    by_cases hx : x = a
    · subst hx; simp
    · by_cases hlt : a + 1 ≤ x
      · rw [if_neg hx, if_pos hlt, if_pos (by omega), show x - a = (x - (a + 1)) + 1 by omega]
        rfl
      · rw [if_neg hx, if_neg hlt, if_neg (by omega)]

/-- The words stored by a unit: its own words where it has one, else what was there. -/
theorem readWord_writeUnitCells (s : State) (b b' : Bank) (u : List Nat) (c : List WordCell) (x : Nat)
    (h : risingCells c = true) :
    (s.writeCells b (cellsOfUnit u c)).readWord b' x =
      if b' = b ∧ x ∈ u then (lookupCell x c).getD (s.readWord b' x) else s.readWord b' x := by
  rw [readWord_writeCells _ _ _ _ _ (rising_cellsOfUnit u c h), lookupCell_cellsOfUnit]
  by_cases hb : b' = b <;> by_cases hx : x ∈ u <;> simp [hb, hx]

/-! ### The units of a request (R47) -/

theorem groupByField_flatten (b : Bank) (l : List Nat) : (groupByField b l).flatten = l := by
  induction l with
  | nil => rfl
  | cons a t ih =>
    simp only [groupByField]
    split
    · rename_i c cs groups heq
      rw [heq] at ih
      split
      · simpa using ih
      · simpa using ih
    · simpa using ih

theorem groupByField_nonempty (b : Bank) (l : List Nat) (u : List Nat) (h : u ∈ groupByField b l) : u ≠ [] := by
  induction l generalizing u with
  | nil => simp [groupByField] at h
  | cons a t ih =>
    simp only [groupByField] at h
    split at h
    · rename_i c cs groups heq
      split at h
      · rcases List.mem_cons.1 h with rfl | h
        · simp
        · exact ih u (by rw [heq]; exact List.mem_cons_of_mem _ h)
      · rcases List.mem_cons.1 h with rfl | h
        · simp
        · exact ih u (by rw [heq]; exact h)
    · rcases List.mem_cons.1 h with rfl | h
      · simp
      · exact ih u h

end Sys2Proof.Machine
end

