-- ==== Sys2Proof/Laws/PerInstr.lean ====
section
/-! SUPPORT. The statement made per instruction: its command word carries its three fields in their places, and it is
well-formed. -/

namespace Sys2Proof.Laws.Fields

/-- The command word of an instruction carries `op`, `len` and `payload` in bits 41:40, 39:32 and 31:0 (R71), and the
instruction is well-formed whatever its fields hold (R78). -/
def Statement (i : Instr) : Prop :=
  cmdOp (encode i) = i.op ∧ cmdLen (encode i) = i.len ∧ cmdPayload (encode i) = i.payload ∧ i.wf = true

theorem slices (op : BitVec 2) (len : BitVec 8) (payload : Val32) :
    cmdOp (op ++ len ++ payload) = op ∧ cmdLen (op ++ len ++ payload) = len ∧
      cmdPayload (op ++ len ++ payload) = payload := by
  have ho := op.isLt
  have hl := len.isLt
  have hp := payload.isLt
  have hw : (op ++ len ++ payload).toNat = op.toNat * 2 ^ 40 + len.toNat * 2 ^ 32 + payload.toNat := by
    rw [BitVec.toNat_append, BitVec.toNat_append, Nat.shiftLeft_eq, Nat.mul_comm, ← Nat.two_pow_add_eq_or_of_lt hp,
      Nat.shiftLeft_eq, Nat.mul_comm op.toNat, ← Nat.two_pow_add_eq_or_of_lt hl]
    omega
  refine ⟨?_, ?_, ?_⟩ <;> apply BitVec.eq_of_toNat_eq
  · rw [cmdOp, BitVec.extractLsb'_toNat, Nat.shiftRight_eq_div_pow, hw]; omega
  · rw [cmdLen, BitVec.extractLsb'_toNat, Nat.shiftRight_eq_div_pow, hw]; omega
  · rw [cmdPayload, BitVec.extractLsb'_toNat, Nat.shiftRight_eq_div_pow, hw]; omega

theorem of_slices (i : Instr) (hwf : i.wf = true) : Statement i :=
  ⟨(slices i.op i.len i.payload).1, (slices i.op i.len i.payload).2.1, (slices i.op i.len i.payload).2.2, hwf⟩

theorem encI32 (len : BitVec 8) (payload : Val32) : Statement (.encI32 len payload) := of_slices _ rfl

theorem encF32 (len : BitVec 8) (payload : Val32) : Statement (.encF32 len payload) := of_slices _ rfl

theorem decI32 (len : BitVec 8) (payload : Val32) : Statement (.decI32 len payload) := of_slices _ rfl

theorem decF32 (len : BitVec 8) (payload : Val32) : Statement (.decF32 len payload) := of_slices _ rfl

end Sys2Proof.Laws.Fields
end

