-- ==== Sys2Proof/Laws/Programs.lean ====
section
/-! SUPPORT. A well-formed program: what its check says of its first line, and that an operand the check accepts has a value. -/

namespace Sys2Proof.Machine

theorem programChecks_drop (p : List Line) (n : Nat) : (programChecks p).drop n = programChecks (p.drop n) := by
  induction p generalizing n with
  | nil => simp [programChecks]
  | cons l t ih =>
    cases n with
    | zero => rfl
    | succ n => simp [programChecks, ih]

/-- The check of a program is the check of its first line and of what may follow it. -/
theorem programOk_cons (env : Shapes) (l : Line) (rest : List Line) (h : programOk env (l :: rest) = true) :
    l.ok env = true ∧ programOk (l.binds env) rest = true ∧ programOk (l.binds env) (rest.drop l.skips) = true := by
  unfold programOk at *
  simp only [programChecks, firstCheck, Bool.and_eq_true, Bool.or_eq_true, beq_iff_eq, programChecks_drop] at h
  refine ⟨h.1.1, h.1.2, ?_⟩
  rcases h.2 with h2 | h2
  · rw [h2]; exact h.1.2
  · exact h2

theorem lookupShape_shapesOf (x : Name) (ns : List (Name × Value)) :
    lookupShape x (shapesOf ns) = (lookupName x ns).map Value.shape := by
  induction ns with
  | nil => rfl
  | cons g t ih =>
    obtain ⟨y, v⟩ := g
    simp only [shapesOf, List.map_cons, lookupShape, lookupName]
    split
    · rfl
    · exact ih

theorem evalElem_of_ok (ns : List (Name × Value)) (x : Name) (k : Nat) (h : elemOk (shapesOf ns) x k = true) :
    ∃ w, evalElem ns x k = .ok w := by
  unfold elemOk at h
  rw [lookupShape_shapesOf] at h
  unfold evalElem
  cases e : lookupName x ns with
  | none => rw [e] at h; simp at h
  | some v =>
    rw [e] at h
    cases v with
    | val v => simp [Value.shape] at h
    | words ws =>
      simp [Value.shape] at h
      simp only []
      rw [List.getElem?_eq_getElem h]
      exact ⟨_, rfl⟩

theorem evalWord_of_ok (ns : List (Name × Value)) (o : WordOperand) (h : o.ok (shapesOf ns) = true) :
    ∃ w, evalWord ns o = .ok w := by
  cases o with
  | lit w => exact ⟨w, rfl⟩
  | elem x k => exact evalElem_of_ok ns x k h
  | flagNot x k =>
    obtain ⟨w, hw⟩ := evalElem_of_ok ns x k h
    exact ⟨flagComplement w, by simp [evalWord, hw]⟩

theorem evalWords_of_ok (ns : List (Name × Value)) (os : List WordOperand)
    (h : os.all (·.ok (shapesOf ns)) = true) : ∃ ws, evalWords ns os = .ok ws ∧ ws.length = os.length := by
  induction os with
  | nil => exact ⟨[], rfl, rfl⟩
  | cons o os ih =>
    simp only [List.all_cons, Bool.and_eq_true] at h
    obtain ⟨w, hw⟩ := evalWord_of_ok ns o h.1
    obtain ⟨ws, hws, hl⟩ := ih h.2
    exact ⟨w :: ws, by simp [evalWords, hw, hws], by simp [hl]⟩

theorem evalVal_of_ok (ns : List (Name × Value)) (o : ValOperand) (h : o.ok (shapesOf ns) = true) :
    ∃ v, evalVal ns o = .ok v := by
  cases o with
  | lit w => exact ⟨w, rfl⟩
  | name x =>
    simp only [ValOperand.ok, lookupShape_shapesOf, beq_iff_eq] at h
    cases e : lookupName x ns with
    | none => rw [e] at h; simp at h
    | some v =>
      rw [e] at h
      cases v with
      | val v => exact ⟨v, by simp [evalVal, e]⟩
      | words ws => simp [Value.shape] at h

theorem evalSeq_of_ok (ns : List (Name × Value)) (x : Name) (h : seqOk (shapesOf ns) x = true) :
    ∃ ws, evalSeq ns x = .ok ws := by
  unfold seqOk at h
  rw [lookupShape_shapesOf] at h
  cases e : lookupName x ns with
  | none => rw [e] at h; simp at h
  | some v =>
    rw [e] at h
    cases v with
    | val v => simp [Value.shape] at h
    | words ws => exact ⟨ws, by simp [evalSeq, e]⟩

/-- A command's result has the shape the check of a program takes it to have. -/
theorem boundValue_shape (i : Instr) (p : Val32) : (boundValue i p).shape = resultShape i := by
  cases i <;> rfl

end Sys2Proof.Machine
end

