-- ==== Sys2Proof/Laws/Turns.lean ====
section
/-! SUPPORT. What a turn and a step can do, said once: whose turn it can be, and what a turn leaves alone. -/

namespace Sys2Proof.Machine

/-! ### Whose turn it can be -/

/-- The requesters that can move, counted from `k`. -/
theorem mem_movable (k : Nat) (l : List Requester) (who : Nat) (h : who ∈ movable k l) :
    k ≤ who ∧ ∃ q, l[who - k]? = some q ∧ q.canMove = true := by
  induction l generalizing k with
  | nil => simp [movable] at h
  | cons q t ih =>
    simp only [movable] at h
    split at h
    · rcases List.mem_cons.1 h with rfl | h
      · exact ⟨Nat.le_refl _, q, by simp, by assumption⟩
      · obtain ⟨h1, q', h2, h3⟩ := ih _ h
        exact ⟨by omega, q', by rw [show who - k = who - (k + 1) + 1 by omega]; simpa using h2, h3⟩
    · obtain ⟨h1, q', h2, h3⟩ := ih _ h
      exact ⟨by omega, q', by rw [show who - k = who - (k + 1) + 1 by omega]; simpa using h2, h3⟩

theorem movable_eq_nil (k : Nat) (l : List Requester) : movable k l = [] ↔ ∀ q ∈ l, q.canMove = false := by
  induction l generalizing k with
  | nil => simp [movable]
  | cons q t ih => cases h : q.canMove <;> simp [movable, h, ih]

/-- The turn goes to a requester that can move. -/
theorem chosen_canMove (s : State) (who : Nat) (h : s.chosen = some who) :
    ∃ q, s.requesters[who]? = some q ∧ q.canMove = true := by
  obtain ⟨_, q, h2, h3⟩ := mem_movable 0 _ _ (List.mem_of_getElem? h)
  exact ⟨q, by simpa using h2, h3⟩

/-- The turn goes to nobody exactly when nobody can move. -/
theorem chosen_eq_none (s : State) : s.chosen = none ↔ s.runnable = [] := by
  unfold State.chosen
  constructor
  · intro h
    by_contra hne
    have := List.length_pos_iff.2 hne
    rw [List.getElem?_eq_none_iff] at h
    have := Nat.mod_lt s.nextTurn.who this
    omega
  · intro h; rw [h]; rfl

/-! ### What a turn leaves alone -/

/-- `t` is `s` after something one requester did: only that requester and the words of the banks may differ. -/
def Moved (who : Nat) (s t : State) : Prop :=
  (∃ f : Requester → Requester, (∀ q, (f q).role = q.role) ∧ t.requesters = s.requesters.modify who f) ∧
    t.params = s.params ∧ t.turns = s.turns ∧ t.draws = s.draws

theorem Moved.refl (who : Nat) (s : State) : Moved who s s := ⟨⟨id, fun _ => rfl, by simp⟩, rfl, rfl, rfl⟩

theorem Moved.trans {who : Nat} {s t u : State} (h : Moved who s t) (h' : Moved who t u) : Moved who s u := by
  obtain ⟨⟨f, hf, e⟩, p1, p2, p3⟩ := h
  obtain ⟨⟨g, hg, e'⟩, r1, r2, r3⟩ := h'
  exact ⟨⟨g ∘ f, fun q => by simp [hg, hf], by rw [e', e, List.modify_modify_eq]⟩, by rw [r1, p1], by rw [r2, p2],
    by rw [r3, p3]⟩

theorem moved_modify (who : Nat) (s : State) (f : Requester → Requester) (hf : ∀ q : Requester, (f q).role = q.role) :
    Moved who s (s.modifyRequester who f) := ⟨⟨f, hf, rfl⟩, rfl, rfl, rfl⟩

/-- A requester that did not move is as it was. -/
theorem Moved.other {who : Nat} {s t : State} (h : Moved who s t) (k : Nat) (hk : k ≠ who) :
    t.requesters[k]? = s.requesters[k]? := by
  obtain ⟨⟨f, _, e⟩, _⟩ := h
  rw [e]
  simp [Ne.symm hk]

/-- A command that is issued is answered, and the answer goes to the requester that issued it. -/
theorem issue_eq (who : Nat) (d : Name) (i : Instr) (s : State) :
    issue who d i s = .next ((s.atPorts who d).deliver (responseOf i) (boundValue i)) := by
  unfold issue; rw [exec_eq_deliver]

theorem moved_issue (who : Nat) (d : Name) (i : Instr) (s t : State) (h : issue who d i s = .next t) :
    Moved who s t ∧ t.memory = s.memory := by
  rcases issue_cases who d i s with ⟨p, _, e⟩ | ⟨_, e⟩ <;> rw [e] at h <;> injection h with h <;> subst h <;>
    refine ⟨Moved.trans (t := s.atPorts who d) ⟨⟨(·.await d), fun _ => rfl, rfl⟩, rfl, rfl, rfl⟩
      (moved_modify _ _ _ fun _ => rfl), rfl⟩

theorem moved_performUnit (who c : Nat) (inv : Invocation) (s : State) : Moved who s (performUnit who c inv s) := by
  unfold performUnit
  split
  · unfold readUnit
    simp only []
    split <;> exact moved_modify _ _ _ fun _ => rfl
  · unfold writeUnit
    simp only []
    have hw : ∀ cs, Moved who s (s.writeCells inv.bank cs) := fun cs =>
      ⟨⟨id, fun _ => rfl, by simp⟩, by simp, by simp, by simp⟩
    split <;> exact (hw _).trans (moved_modify _ _ _ fun _ => rfl)

theorem moved_execMemRead (who c : Nat) (b : Bank) (a n : Nat) (s : State) :
    Moved who s (execMemRead who c b a n s) := by
  unfold execMemRead
  split
  · exact moved_performUnit ..
  · exact moved_modify _ _ _ fun _ => rfl

theorem moved_execMemWrite (who c : Nat) (b : Bank) (a : Nat) (ws : List Word) (s : State) :
    Moved who s (execMemWrite who c b a ws s) := by
  unfold execMemWrite
  split
  · exact moved_performUnit ..
  · exact moved_modify _ _ _ fun _ => rfl

theorem moved_runLine (who c : Nat) (names : List (Name × Value)) (rest : List Line) (line : Line) (s t : State)
    (h : runLine who c names rest line s = .next t) : Moved who s t := by
  cases line with
  | command cw d => exact (moved_issue _ _ _ _ _ h).1
  | enc k v d =>
    simp only [runLine] at h
    split at h
    · exact (moved_issue _ _ _ _ _ h).1
    · cases h
  | dec k len w0 w1 d =>
    simp only [runLine] at h
    split at h
    · exact (moved_issue _ _ _ _ _ h).1
    · cases h
    · cases h
  | decSeq k x d =>
    simp only [runLine] at h
    split at h
    · exact (moved_issue _ _ _ _ _ h).1
    · cases h
  | memRead b a n d =>
    simp only [runLine] at h
    injection h with h
    subst h
    exact (moved_modify who s (·.await d) fun _ => rfl).trans (moved_execMemRead ..)
  | memWrite b a ws =>
    simp only [runLine] at h
    split at h
    · injection h with h
      subst h
      exact moved_execMemWrite ..
    · cases h
  | skipIfZero o n =>
    simp only [runLine] at h
    split at h
    · injection h with h
      subst h
      split
      · exact moved_modify who s (·.withProgram (rest.drop n)) fun _ => rfl
      · exact Moved.refl _ _
    · cases h

/-- What a turn leaves alone, whatever the turn. -/
theorem moved_takeTurn (who c : Nat) (s t : State) (h : takeTurn who c s = .next t) : Moved who s t := by
  unfold takeTurn at h
  split at h
  · injection h with h
    subst h
    exact Moved.refl _ _
  · split at h
    · injection h with h
      subst h
      exact moved_performUnit ..
    · injection h with h
      subst h
      exact Moved.refl _ _
    · rename_i rest _ _
      exact (moved_modify who s (·.withProgram rest) fun _ => rfl).trans (moved_runLine _ _ _ _ _ _ _ h)

/-- What a step can be: nothing, when nobody can move, or the turn of the requester it goes to. -/
theorem step_cases (s t : State) (h : step s = .next t) :
    (s.chosen = none ∧ t = s) ∨
      ∃ who, s.chosen = some who ∧ takeTurn who s.nextTurn.unit s.spendTurn = .next t ∧ Moved who s.spendTurn t := by
  unfold step at h
  split at h
  · injection h with h
    subst h
    exact .inl ⟨by assumption, rfl⟩
  · exact .inr ⟨_, by assumption, h, moved_takeTurn _ _ _ _ h⟩

/-! ### The units of an invocation -/

theorem unitIndex_lt (inv : Invocation) (c : Nat) (h : inv.pending ≠ []) : unitIndex inv c < inv.pending.length :=
  Nat.mod_lt _ (List.length_pos_iff.2 h)

theorem chosenUnit_mem (inv : Invocation) (c : Nat) (h : inv.pending ≠ []) : chosenUnit inv c ∈ inv.pending := by
  unfold chosenUnit
  rw [List.getD_eq_getElem _ _ (unitIndex_lt inv c h)]
  exact List.getElem_mem _

/-- The unit taken and those left are the units that were pending. -/
theorem chosenUnit_cons_unitsLeft (inv : Invocation) (c : Nat) (h : inv.pending ≠ []) :
    (chosenUnit inv c :: unitsLeft inv c).Perm inv.pending := by
  unfold chosenUnit unitsLeft
  rw [List.getD_eq_getElem _ _ (unitIndex_lt inv c h)]
  exact List.getElem_cons_eraseIdx_perm (unitIndex_lt inv c h)

theorem unitsLeft_length (inv : Invocation) (c : Nat) (h : inv.pending ≠ []) :
    (unitsLeft inv c).length + 1 = inv.pending.length := (chosenUnit_cons_unitsLeft inv c h).length_eq

/-- The addresses of the unit taken and of those left are the addresses that were pending. -/
theorem chosenUnit_append_unitsLeft (inv : Invocation) (c : Nat) (h : inv.pending ≠ []) :
    (chosenUnit inv c ++ (unitsLeft inv c).flatten).Perm inv.pending.flatten := by
  have := (chosenUnit_cons_unitsLeft inv c h).flatten
  simpa using this

/-- Where a whole invocation is one unit (R47). -/
theorem unitsOf_eq_one (p : Params) (b : Bank) (a n : Nat)
    (h : p.atomicity = .full ∨ (p.atomicity = .pair ∧ n ≤ 2) ∨ n = 1) : unitsOf p b a n = [List.range' a n] := by
  unfold unitsOf requestAddrs
  rcases h with h | ⟨h, h2⟩ | rfl
  · rw [h]
  · rw [h]; simp [h2]
  · cases p.atomicity <;> simp

/-- What a unit of a read does: no word changes, and the requester is given all the words when it was the last unit, or is left
with the other units and the words taken so far. -/
theorem performUnit_read (who c : Nat) (inv : Invocation) (got : List WordCell) (s : State) (q : Requester)
    (h : inv.access = .read got) (hq : s.requesters[who]? = some q) :
    (performUnit who c inv s).memory = s.memory ∧
      (performUnit who c inv s).requesters[who]? = some
        (if unitsLeft inv c = [] then
          (q.receive (.words ((s.gather inv.bank (chosenUnit inv c) got).map Prod.snd))
            (.words ((s.gather inv.bank (chosenUnit inv c) got).map Prod.snd))).settle
        else
          q.withInFlight
            { bank := inv.bank, pending := unitsLeft inv c,
              access := .read (s.gather inv.bank (chosenUnit inv c) got) }) := by
  unfold performUnit
  simp only [h, readUnit, List.isEmpty_iff]
  split <;> simp [hq]

/-- What a unit of a write does: its words are stored, and the requester is left with the other units, if there are any. -/
theorem performUnit_write (who c : Nat) (inv : Invocation) (cells : List WordCell) (s : State) (q : Requester)
    (h : inv.access = .write cells) (hr : risingCells cells = true) (hq : s.requesters[who]? = some q) :
    (∀ b x, (performUnit who c inv s).readWord b x =
        if b = inv.bank ∧ x ∈ chosenUnit inv c then (lookupCell x cells).getD (s.readWord b x) else s.readWord b x) ∧
      (performUnit who c inv s).requesters[who]? = some
        (if unitsLeft inv c = [] then q.settle
        else q.withInFlight { bank := inv.bank, pending := unitsLeft inv c, access := .write cells }) := by
  unfold performUnit
  simp only [h, writeUnit, List.isEmpty_iff]
  constructor
  · intro b x
    rw [← readWord_writeUnitCells s inv.bank b (chosenUnit inv c) cells x hr]
    split <;> rfl
  · split <;> simp [hq]

end Sys2Proof.Machine
end

