-- ==== Sys2Proof/Tests/Slice0.lean ====
section
/-! SUPPORT. The model's own tests, the smoke tests of the well-formedness checks, and one witness for each obligation that has
hypotheses. Expected results are the vectors of 95_test_vectors.md (V-…, P…, S…) or worked by hand from the rule named. -/

namespace Sys2Proof.Tests

open Sys2Proof.Machine

/-! ### Helpers -/

/-- The next state of an outcome. -/
def nextOf (o : Machine.Result) : Option State :=
  match o with
  | .next s => some s
  | .fault _ => none
  | .refused _ => none

/-- The words the tests' runs fix: those the tests read or write. -/
def words : Memory :=
  { di := [],
    co := [(0, 0x0007), (1, 0x0000)],
    hr := [(0, 0x0001), (1, 0x0000), (2, 0x0640), (7, 0x1234), (98, 0x0000), (99, 0x1111)],
    ir := [(0, 0x0000), (1, 0x0001), (2, 0xFFFF), (3, 0x4248), (4, 0x72B0), (5, 0x0000), (6, 0x0000), (7, 0x0000)] }

/-- The parameters of the tests. -/
def params (at_ : Atomicity) : Params := { capacity := 100, atomicity := at_, bankInit := words }

/-- `TICK` and `SERVE` with a program each, and some turns. -/
def scene (at_ : Atomicity) (tick serve : List Line) (turns : List Turn) : State :=
  { params := params at_, memory := Memory.empty,
    requesters :=
      [{ Requester.idle .tick with program := tick }, { Requester.idle .serve with program := serve }],
    issuer := 0, turns := turns, draws := 0 }

/-- What the first requester was given, and its fault, after a step. -/
def given (s : State) : Option (List Returned × Option Cause) :=
  (nextOf (step s)).bind fun t => t.requesters.head?.map fun q => (q.returned, q.fault)

/-- A word after a step. -/
def wordAfter (s : State) (b : Bank) (a : Nat) : Option Word := (nextOf (step s)).map fun t => t.readWord b a

/-! ### Decoding, each word written out from R71 and R72 -/

theorem test_decode_encI32 :
    decode (0b00#2 ++ 0b11111111#8 ++ 0b00000000000000000000011001000000#32) = .encI32 255 0x640 := by decide

theorem test_decode_encF32 :
    decode (0b01#2 ++ 0b00000000#8 ++ 0b01000010010010000111001010110000#32) = .encF32 0 0x424872B0 := by decide

theorem test_decode_decI32 :
    decode (0b10#2 ++ 0b00000010#8 ++ 0b0001001000110100#16 ++ 0b0101011001111000#16) = .decI32 2 0x12345678 := by decide

theorem test_decode_decF32 :
    decode (0b11#2 ++ 0b00001101#8 ++ 0b0011111110000000#16 ++ 0b0000000000000000#16) = .decF32 13 0x3F800000 := by
  decide

/-- V-I6, V-F18, V-D7 and V-G6 as numbers. -/
theorem test_decode_table_words :
    decodeTableWord 48 0x000FFFFFFCE = some (.encI32 0 0xFFFFFFCE) ∧
    decodeTableWord 48 0x100FFC12345 = some (.encF32 0 0xFFC12345) ∧
    decodeTableWord 48 0x202FFFF0000 = some (.decI32 2 0xFFFF0000) ∧
    decodeTableWord 48 0x3027FA00000 = some (.decF32 2 0x7FA00000) := by decide

/-- A number with a bit above bit 41 is no command word (R71). -/
theorem test_decode_rejects_bit_42 : decodeBits (2 ^ 42) = .error .notACommandWord ∧ decodeTableWord 48 (2 ^ 42) = none := by
  decide

/-- V-I12: encoding gives the word back. -/
theorem test_encode_word : encode (.encI32 0 0x12345678) = 0x00012345678#42 ∧ encode (.decF32 2 0x000005DC) = 0x302000005DC#42 := by
  decide

/-! ### The four instructions, as the first instruction after reset -/

/-- V-I13: `len` is ignored. -/
theorem test_encI32_ignores_len :
    given (State.reset.withFetchWord 48 0x0FF00000640) = some ([.response (.ok 0x640)], none) := by decide

/-- V-I11, by hand from R90: the pair is bound hi first. -/
theorem test_encI32_binds_hi_first :
    (nextOf (step (State.reset.withFetchWord 48 0x00000010000))).map (fun t => t.requesters.map (·.names)) =
      some [[(0, .words [0x0001, 0x0000])], [], []] := by decide

/-- V-F17: a NaN keeps its low bit. -/
theorem test_encF32_keeps_a_nan :
    given (State.reset.withFetchWord 48 0x1007F800001) = some ([.response (.ok 0x7F800001)], none) := by decide

/-- V-E10: an encode never fails. -/
theorem test_encF32_ignores_len :
    given (State.reset.withFetchWord 48 0x1073F800000) = some ([.response (.ok 0x3F800000)], none) := by decide

/-- V-D3, V-D7: no sign, and the order of the words. -/
theorem test_decI32_is_unsigned :
    given (State.reset.withFetchWord 48 0x202FFFFFFCE) = some ([.response (.ok 0xFFFFFFCE)], none) ∧
    unsignedReading 0xFFFFFFCE#32 = 4294967246 ∧ signedReading 0xFFFFFFCE#32 = -50 := by decide

/-- V-E2, V-E5: FormatError faults the requester, which is given no result. -/
theorem test_decI32_format_error :
    given (State.reset.withFetchWord 48 0x20100000640) = some ([.response .formatError], some .formatError) ∧
    given (State.reset.withFetchWord 48 0x2FF00000640) = some ([.response .formatError], some .formatError) := by decide

/-- V-G8: sign and payload of a NaN kept. -/
theorem test_decF32_keeps_a_nan :
    given (State.reset.withFetchWord 48 0x302FFC12345) = some ([.response (.ok 0xFFC12345)], none) := by decide

/-- V-E6, V-E8. -/
theorem test_decF32_format_error :
    given (State.reset.withFetchWord 48 0x3003F800000) = some ([.response .formatError], some .formatError) ∧
    given (State.reset.withFetchWord 48 0x3033F800000) = some ([.response .formatError], some .formatError) := by decide

/-- V-D8 and V-E1: the response words of R76. -/
theorem test_response_words :
    (responseOf (.decI32 2 0x12345678)).word = some 0x012345678#33 ∧
    (responseOf (.decI32 0 0x00000640)).word = none ∧
    (responseOf (.decI32 0 0x00000640)).carriedBy 0x1DEADBEEF#33 = true := by decide

/-! ### The operand boundary -/

/-- V-I6, V-I9 and the two ends of R11. -/
theorem test_pat32 :
    pat32 (-50) = some 0xFFFFFFCE ∧ pat32 (-2147483648) = some 0x80000000 ∧ pat32 4294967295 = some 0xFFFFFFFF ∧
    pat32 4294967296 = none ∧ pat32 (-2147483649) = none := by decide

/-- V-F4, V-F9, V-F10, V-F12, and 0.1, which is no binary32 value (R95). -/
theorem test_exactF32 :
    exactF32 true 5 (-1) = some 0xC0200000 ∧ exactF32 false (2 ^ 24 - 1) 104 = some 0x7F7FFFFF ∧
    exactF32 false 1 (-149) = some 0x00000001 ∧ exactF32 false 1 (-126) = some 0x00800000 ∧
    exactF32 false (2 ^ 24 + 1) 0 = none ∧ exactF32 false 1 (-150) = none ∧ exactF32 false 1 128 = none := by
  decide +kernel

/-- V-F2, V-F11, V-F13, V-F16, V-F18 by R14. -/
theorem test_f32val :
    f32val 0x80000000 = .zero true ∧ f32val 0x007FFFFF = .subnormal false (2 ^ 23 - 1) ∧
    f32val 0x7F800000 = .infinity false ∧ f32val 0x7FA00000 = .nan false false 0x200000 ∧
    f32val 0xFFC12345 = .nan true true 0x012345 ∧ f32val 0x3F800000 = .normal false (2 ^ 23) (-23) := by decide +kernel

/-! ### The bank -/

/-- V-B1 and V-U2: a read of a pair, whole, under `PAIR`. -/
theorem test_memRead_pair :
    given (scene .pair [.memRead .ir 3 2 0] [] [⟨0, 0⟩]) = some ([.words [0x4248, 0x72B0]], none) := by decide

/-- V-B2 and V-B3: the last valid pair address, and the first invalid one, where nothing is written. -/
theorem test_memWrite_at_the_end :
    wordAfter (scene .pair [.memWrite .hr 98 [.lit 0xAAAA, .lit 0xBBBB]] [] [⟨0, 0⟩]) .hr 99 = some 0xBBBB ∧
    wordAfter (scene .pair [.memWrite .hr 99 [.lit 0xAAAA, .lit 0xBBBB]] [] [⟨0, 0⟩]) .hr 99 = some 0x1111 ∧
    given (scene .pair [.memWrite .hr 99 [.lit 0xAAAA, .lit 0xBBBB]] [] [⟨0, 0⟩]) =
      some ([.addressInvalid], some .addressInvalid) := by decide

/-- V-B4, V-B5 and V-B6. -/
theorem test_validity :
    validRequest (params .pair) 100 1 = false ∧ validRequest (params .pair) 99 1 = true ∧
    validRequest (params .pair) 0 0 = false ∧ validRequest (params .pair) 0 100 = true ∧
    given (scene .pair [.memRead .ir 0 0 0] [] [⟨0, 0⟩]) = some ([.addressInvalid], some .addressInvalid) := by decide

/-- V-B8 and V-B9: the banks do not alias, and a coil word has 16 bits. -/
theorem test_banks_do_not_alias :
    wordAfter (scene .pair [.memWrite .ir 7 [.lit 0x5678]] [] [⟨0, 0⟩]) .hr 7 = some 0x1234 ∧
    wordAfter (scene .pair [.memWrite .co 0 [.lit 0xFFFF]] [] [⟨0, 0⟩]) .co 0 = some 0xFFFF := by decide

/-- Writing what an unlisted word reads as takes the word off the list. -/
theorem test_memory_stays_canonical :
    (Memory.empty.store (params .pair) .hr 7 0x5678).hr = [(7, 0x5678)] ∧
    (Memory.empty.store (params .pair) .hr 7 0x5678).store (params .pair) .hr 7 0x1234 = Memory.empty := by decide

/-- V-U1 to V-U8. -/
theorem test_units :
    unitsOf (params .pair) .ir 0 13 = [[0], [1, 2], [3, 4], [5, 6], [7, 8], [9, 10], [11, 12]] ∧
    unitsOf (params .pair) .ir 2 2 = [[2, 3]] ∧ unitsOf (params .pair) .ir 1 3 = [[1, 2], [3]] ∧
    unitsOf (params .pair) .hr 0 5 = [[0], [1, 2], [3, 4]] ∧ unitsOf (params .pair) .hr 10 3 = [[10], [11], [12]] ∧
    unitsOf (params .pair) .co 0 4 = [[0], [1], [2], [3]] ∧ unitsOf (params .full) .co 0 4 = [[0, 1, 2, 3]] ∧
    unitsOf (params .word) .ir 1 2 = [[1], [2]] := by decide

/-- R47, R50: one unit of three words is performed, the one the turn chooses; two words are left. -/
theorem test_one_unit_of_a_write :
    let s := scene .pair [.memWrite .ir 1 [.lit 9, .lit 8, .lit 7]] [] [⟨0, 1⟩]
    wordAfter s .ir 1 = some 0x0001 ∧ wordAfter s .ir 3 = some 0x0007 ∧
    (nextOf (step s)).map (fun t => t.requesters.map fun q => q.inFlight.map (·.pending)) =
      some [some [[1, 2]], none] := by decide

/-- V-P8: the unexamined bits do not matter to the failure. -/
theorem test_decSeq_of_one_word :
    given { scene .pair [.decSeq .int32 0 1] [] [⟨0, 0⟩] with
      requesters := [{ Requester.idle .tick with program := [.decSeq .int32 0 1], names := [(0, .words [0x0001])] }] } =
      some ([.response .formatError], some .formatError) := by decide

/-- R119: the lines are left out exactly when the word is 0. -/
theorem test_skipIfZero :
    (nextOf (step (scene .pair (.skipIfZero (.lit 0) 1 :: readSetpoints) [] [⟨0, 0⟩]))).map
      (fun t => t.requesters.map (·.program)) = some [readSetpoints.drop 1, []] ∧
    (nextOf (step (scene .pair (.skipIfZero (.lit 2) 1 :: readSetpoints) [] [⟨0, 0⟩]))).map
      (fun t => t.requesters.map (·.program)) = some [readSetpoints, []] := by decide

/-- R118: the complement exchanges 0 and 1. -/
theorem test_flagNot :
    evalWord [(0, .words [0x0000, 0x0001])] (.flagNot 0 0) = .ok 1 ∧
    evalWord [(0, .words [0x0000, 0x0001])] (.flagNot 0 1) = .ok 0 := by decide

/-- A program that names a word no line bound stops the machine by name (log 12). -/
theorem test_unbound_operand_stops :
    (match step (scene .pair [.memWrite .ir 1 [.elem 5 0]] [] [⟨0, 0⟩]) with
      | .fault r => decide (r = .unboundOperand 5)
      | .next _ => false
      | .refused _ => false) = true := by decide

/-! ### Sequences and texts -/

/-- S6 and P2: the frame of scenario 1. -/
theorem test_telemetry_frame :
    telemetryFrame localFlag ⟨0x4B0, 0x424872B0, 0x43A80000⟩ .inactive =
      [0, 0x0000, 0x04B0, 0x4248, 0x72B0, 0x43A8, 0x0000, 0, 0, 0, 0, 0, 0] := by decide

/-- P2's snapshot. -/
theorem test_snapshot :
    (snapshotOf [(0, .words [0]), (1, .val 0x4B0), (2, .val 0x424872B0), (3, .val 0x43A80000), (4, .val 0), (5, .val 0),
      (6, .val 0)]).map (fun x => (x.inControl, x.pump1Speed, x.pump2Power)) = some (false, 1200, .zero false) := by
  decide +kernel

/-- R30: 0 is LOCAL and 1 is EXTERNAL. -/
theorem test_inControlOf : inControlOf localFlag = false ∧ inControlOf externalFlag = true := by decide

/-- S2b: the lines of `setPumpSpeed(1, -50)`. -/
theorem test_setPumpSpeed :
    setPumpSpeed .pump1 0xFFFFFFCE = [.enc .int32 (.lit 0xFFFFFFCE) 0, .memWrite .hr 1 [.elem 0 0, .elem 0 1]] := by decide

/-- Every sequence of R116 to R119 is a well-formed program. -/
theorem test_sequences_are_programs :
    programOk [] (frameAtOnce localFlag .inactive .inactive) = true ∧
    programOk [] (frameByFields externalFlag .inactive .inactive) = true ∧ programOk [] readSetpoints = true ∧
    programOk [] pollByFields = true ∧ programOk [] pollAtOnce = true ∧ programOk [] (setPumpSpeed .pump2 5) = true ∧
    programOk [] (toggleControl .hr) = true := by decide

/-- R80: the texts of the lines of R100's and R90's examples. -/
theorem test_texts :
    prefixedText .serve (.dec .int32 2 (.lit 0) (.lit 0x640) 3) = "SERVE: DECI32 2, 0x0000, 0x0640 => x3" ∧
    (Line.enc .int32 (.lit 0x640) 0).text = "ENCI32 0x00000640 => (x0[0], x0[1])" ∧
    (Pseudo.sti32 .hr 1 (.lit 0x640)).text = "STI32 HR, 1, 0x00000640" := by decide +kernel

/-! ### Smoke tests: each check refuses an ill-formed term -/

theorem smoke_canonical : (Instr.encI32 1 0).canonical = false ∧ (Instr.encF32 255 0).canonical = false ∧
    (Instr.encI32 0 7).canonical = true ∧ (Instr.decI32 1 0).canonical = true := by decide

theorem smoke_elem_unbound : programOk [] [.dec .int32 2 (.elem 0 0) (.lit 0) 1] = false := by decide
theorem smoke_elem_out_of_range :
    programOk [] [.enc .int32 (.lit 0) 0, .dec .int32 2 (.elem 0 1) (.elem 0 2) 1] = false := by decide
theorem smoke_elem_of_a_value : programOk [] [.dec .int32 2 (.lit 0) (.lit 0) 0, .memWrite .hr 0 [.elem 0 0]] = false := by
  decide
theorem smoke_flagNot_unbound : programOk [] [.memWrite .hr 0 [.flagNot 0 0]] = false := by decide
theorem smoke_value_unbound : programOk [] [.enc .float32 (.name 3) 0] = false := by decide
theorem smoke_value_of_a_sequence : programOk [] [.memRead .ir 0 2 0, .enc .int32 (.name 0) 1] = false := by decide
theorem smoke_sequence_unbound : programOk [] [.decSeq .int32 0 1] = false := by decide
theorem smoke_sequence_of_a_value : programOk [] [.dec .int32 2 (.lit 0) (.lit 0) 0, .decSeq .int32 0 1] = false := by decide
theorem smoke_skip_unbound : programOk [] [.skipIfZero (.elem 0 0) 1] = false := by decide
theorem smoke_binding_that_may_be_skipped :
    programOk [] [.skipIfZero (.lit 0) 1, .memRead .ir 0 1 0, .memWrite .hr 0 [.elem 0 0]] = false := by decide
theorem smoke_result_of_a_command :
    programOk [] [.command 0x20200000640#42 0, .memWrite .hr 0 [.elem 0 0]] = false ∧
    programOk [] [.command 0x00000000640#42 0, .memWrite .hr 0 [.elem 0 1]] = true := by decide

theorem smoke_memory :
    Memory.wf (params .pair) { Memory.empty with hr := [(2, 5), (1, 5)] } = false ∧
    Memory.wf (params .pair) { Memory.empty with hr := [(1, 5), (1, 5)] } = false ∧
    Memory.wf (params .pair) { Memory.empty with hr := [(7, 0x1234)] } = false ∧
    Memory.wf { params .pair with capacity := 7 } { Memory.empty with hr := [(7, 5)] } = false ∧
    Memory.wf (params .pair) { Memory.empty with hr := [(1, 5), (2, 5)] } = true := by decide

theorem smoke_capacity : Config.capacityAllowed 12 = false ∧ Config.capacityAllowed 256 = false ∧
    Config.capacityAllowed 13 = true ∧ Config.capacityAllowed 255 = true := by decide

theorem smoke_invocation :
    Invocation.wf (params .pair) ⟨.ir, [], .read []⟩ = false ∧
    Invocation.wf (params .pair) ⟨.ir, [[1, 2], [2]], .read []⟩ = false ∧
    Invocation.wf (params .pair) ⟨.ir, [[100]], .read []⟩ = false ∧
    Invocation.wf (params .pair) ⟨.ir, [[1]], .read [(1, 0)]⟩ = false ∧
    Invocation.wf (params .pair) ⟨.ir, [[1]], .write [(2, 0), (1, 0)]⟩ = false ∧
    Invocation.wf (params .pair) ⟨.ir, [[1]], .write [(1, 0), (100, 0)]⟩ = false ∧
    Invocation.wf (params .pair) ⟨.ir, [[1]], .write []⟩ = false ∧
    Invocation.wf (params .pair) ⟨.ir, [[1]], .write [(1, 0)]⟩ = true ∧
    Invocation.wf (params .pair) ⟨.ir, [[1, 2]], .read [(3, 0)]⟩ = true := by decide

theorem smoke_faulted_with_an_invocation :
    Requester.wf (params .pair)
      { Requester.idle .tick with fault := some .formatError, inFlight := some ⟨.ir, [[1]], .read []⟩ } = false := by decide

/-! ### Witnesses: the hypotheses of each obligation are met -/

/-- The state right after reset is well-formed (for `WellFormedStatesStepToWellFormedStates`, `EveryRunEnds` and
`EndedRunsStayAsTheyAre`, in its ended clause). -/
theorem witness_reset_wf : State.reset.wf = true ∧ State.reset.ended = true ∧ State.reset.chosen = none := by decide

/-- A read of three words under `PAIR` with one unit left, between a writer and a reader. -/
def busy : State :=
  { scene .pair [.memWrite .ir 1 [.lit 0, .lit 0]] [] [⟨0, 0⟩] with
    requesters :=
      [{ Requester.idle .tick with program := [.memWrite .ir 1 [.lit 0, .lit 0]] },
       { Requester.idle .serve with inFlight := some ⟨.ir, [[3]], .read [(1, 0), (2, 0)]⟩, program := [.memWrite .hr 0 [.elem 0 2]] }] }

/-- A well-formed state in the middle of a run (`EndedRunsStayAsTheyAre`, `EveryStepLeavesLessWork`, `EveryRunEnds`). -/
theorem witness_busy : busy.wf = true ∧ busy.ended = false ∧ busy.chosen = some 0 ∧ (nextOf (step busy)).isSome = true ∧
    busy.work = 6 := by decide

theorem witness_ResponseWordsCarryOneOutcome :
    (0x000000640#33).extractLsb' 32 1 = 0 ∧ (0x1FFFFFFFF#33).extractLsb' 32 1 = 1 := by decide

/-- The clauses of `EncI32SplitsThePattern`, `DecI32JoinsTheWords` and `DecF32JoinsTheWords` that have hypotheses. -/
theorem witness_TheFourInstructions : pat32 (-50) = some 0xFFFFFFCE ∧ (1 : BitVec 8) ≠ 2 ∧ (3 : BitVec 8) ≠ 2 := by decide

theorem witness_EncodesNeverFail : (0x1FFFFFFFFFF#42).getLsbD 41 = false ∧ (0x00000000000#42).getLsbD 41 = false := by decide

theorem witness_FormatErrorExactlyWhenLengthIsNotTwo :
    (0 : BitVec 8) ≠ 2 ∧ (1 : BitVec 8) ≠ 2 ∧ (3 : BitVec 8) ≠ 2 ∧ (255 : BitVec 8) ≠ 2 := by decide

theorem witness_FormatErrorFaultsOnlyTheIssuer :
    responseOf (.decI32 3 0x640) = .formatError ∧ responseOf (.decF32 1 0x3F800000) = .formatError ∧
    busy.requesters[busy.issuer]?.isSome = true := by decide

theorem witness_CodecInstructionsChangeOnlyTheIssuersAnswers :
    (nextOf (exec (.encI32 0 1) busy)).isSome = true ∧ (nextOf (exec (.encF32 0 1) busy)).isSome = true ∧
    (nextOf (exec (.decI32 2 1) busy)).isSome = true ∧ (nextOf (exec (.decF32 3 1) busy)).isSome = true ∧
    busy.requesters[busy.issuer]?.isSome = true := by decide

theorem witness_RoundTripOfIntegers :
    ∀ v ∈ [-(2 : Int) ^ 31, -1, 0, 2 ^ 31 - 1, 2 ^ 31, 2 ^ 32 - 1], -(2 : Int) ^ 31 ≤ v ∧ v ≤ 2 ^ 32 - 1 := by decide

theorem witness_IntegerOperandsArePresentableExactlyInRange :
    pat32 (-2147483648) = some 0x80000000 ∧ pat32 2147483647 = some 0x7FFFFFFF ∧ pat32 2147483648 = some 0x80000000 ∧
    pat32 4294967295 = some 0xFFFFFFFF := by decide

theorem witness_BinaryPatternsAreDeterminedByTheirValue : f32val 0xFFC12345 = f32val 0xFFC12345 := rfl

theorem witness_FloatOperandsAreExact :
    exactF32 true 0 5 = some 0x80000000 ∧ exactF32 false 3 (-149) = some 0x00000003 ∧
    exactF32 true 5 (-1) = some 0xC0200000 := by decide +kernel

theorem witness_EveryFiniteFloatIsPresentable :
    f32Finite 0x3F800000 = true ∧ (f32val 0x3F800000).toRat = some (withSign (f32Sign 0x3F800000) ((1 : ℕ) * 2 ^ (0 : Int))) := by
  refine ⟨by decide +kernel, ?_⟩
  rw [show f32val 0x3F800000 = .normal false (2 ^ 23) (-23) by decide +kernel, show f32Sign 0x3F800000 = false by decide]
  norm_num [F32.toRat, withSign]

theorem witness_PresentedSequencesFailUnlessTwoWords : ([0x0000, 0x0640] : List Word) = [0x0000, 0x0640] := rfl

theorem witness_CommandsOfTwoRequestersDoNotInteract : (0 : Nat) ≠ 1 ∧ busy.requesters.length = 2 := by decide

theorem witness_StepRunsThePresentedCommand :
    let s := scene .pair [.command 0x20200000640#42 1] [] [⟨0, 0⟩]
    s.chosen = some 0 ∧ s.requesters[0]? = some { Requester.idle .tick with program := [.command 0x20200000640#42 1] } := by
  decide

theorem witness_StepRunsTheAssembledLine :
    (scene .pair [.enc .int32 (.lit 5) 0] [] [⟨0, 0⟩]).chosen = some 0 ∧ evalVal [] (.lit 5) = .ok 5 ∧
    (scene .pair [.dec .float32 2 (.lit 1) (.lit 2) 0] [] [⟨0, 0⟩]).chosen = some 0 ∧ evalWord [] (.lit 1) = .ok 1 ∧
    (scene .pair [.decSeq .int32 0 1] [] [⟨0, 0⟩]).chosen = some 0 ∧ evalSeq [(0, .words [7])] 0 = .ok [7] := by decide

theorem witness_PlacedWordRunsNext : 2 ^ 42 - 1 < 2 ^ 42 ∧ 0 < 2 ^ 42 := by decide

theorem witness_EveryOrderIsPossible :
    0 ∈ busy.runnable ∧ 1 ∈ busy.runnable ∧ [3] ∈ (Invocation.mk .ir [[1, 2], [3]] (.read [])).pending := by decide

/-- A faulted requester beside one that moves. -/
def oneFaulted : State :=
  { busy with requesters :=
      [{ Requester.idle .tick with program := [.memRead .ir 1 2 0], fault := some .formatError },
       { Requester.idle .serve with program := [.memRead .ir 1 2 0] }] }

theorem witness_FaultedRequestersNeverMove :
    (nextOf (step oneFaulted)).isSome = true ∧ oneFaulted.chosen = some 1 ∧
    (oneFaulted.requesters.map (·.fault)) = [some .formatError, none] := by decide

theorem witness_StepsMoveOneRequesterAndKeepTheParameters :
    (nextOf (step busy)).isSome = true ∧ (nextOf (step State.reset)).isSome = true := by decide

theorem witness_CanonicalMemoriesThatReadAlikeAreEqual :
    Memory.wf (params .pair) { Memory.empty with hr := [(99, 5)] } = true := by decide

theorem witness_InvalidRequestsAreRefusedWhole :
    ¬(1 ≤ 0 ∧ 0 + 0 ≤ 100) ∧ ¬(1 ≤ 1 ∧ 100 + 1 ≤ (params .pair).capacity) ∧ ¬(1 ≤ 2 ∧ 99 + 2 ≤ (params .pair).capacity) ∧
    (1 ≤ 1 ∧ 99 + 1 ≤ (params .pair).capacity) := by decide

/-- `UnitsPartitionTheRequest` and the four clauses of `UnitsAreFieldsUnderPair`, the third at the least length it speaks of. -/
theorem witness_Units :
    1 ≤ 3 ∧ (params .full).atomicity = .full ∧ (params .pair).atomicity = .pair ∧ 2 < 3 ∧ 2 ≤ 2 ∧
    (params .word).atomicity = .word ∧ 1 ∈ List.range' 1 3 ∧ 2 ∈ List.range' 1 3 ∧ sameField .ir 1 2 = true ∧
    sameField .ir 2 3 = false := by decide

/-- `OneUnitReadReturnsTheWords` and `OneUnitWriteStoresTheWords`, each way of being one unit, at the end of a bank. -/
theorem witness_OneUnit :
    1 ≤ 2 ∧ 98 + 2 ≤ (scene .pair [] [] []).params.capacity ∧ (scene .pair [] [] []).params.atomicity = .pair ∧
    (scene .full [] [] []).params.atomicity = .full ∧ 99 + [(0x1111 : Word)].length ≤ (scene .word [] [] []).params.capacity := by
  decide

theorem witness_ReadsReturnTheWordsInEveryUnitOrder :
    let s := scene .pair [.memRead .ir 1 3 0] [] []
    s.requesters[0]? = some { Requester.idle .tick with program := [.memRead .ir 1 3 0] } ∧
    1 + 3 ≤ s.params.capacity ∧ [1, 0].length = (unitsOf s.params .ir 1 3).length := by decide

theorem witness_WritesStoreTheWordsInEveryUnitOrder :
    let s := scene .word [.memWrite .ir 1 [.lit 3, .lit 4]] [] []
    s.requesters[0]? = some { Requester.idle .tick with program := [.memWrite .ir 1 [.lit 3, .lit 4]] } ∧
    evalWords [] [.lit 3, .lit 4] = .ok [3, 4] ∧ 1 + 2 ≤ s.params.capacity ∧
    [1, 0].length = (unitsOf s.params .ir 1 2).length := by decide

/-- A state in which requester 0 issues what it is given and requester 1 has an invocation of three words in flight. -/
def inFlight (line : Line) (inv : Invocation) (turn : Turn) : State :=
  { scene .pair [line] [] [turn] with
    requesters :=
      [{ Requester.idle .tick with program := [line] }, { Requester.idle .serve with inFlight := some inv }] }

/-- A read that is issued, its second unit first, and the last unit of one in flight; both in a well-formed state. -/
theorem witness_ReadUnitsTakeTheWordsAsTheyStand :
    let line := Line.memRead .ir 1 3 0
    let inv := Invocation.mk .ir [[1, 2]] (.read [(3, 0x4248)])
    (∀ turn ∈ [Turn.mk 0 1, ⟨1, 0⟩], (inFlight line inv turn).wf = true) ∧
    (inFlight line inv ⟨0, 1⟩).chosen = some 0 ∧
    (inFlight line inv ⟨0, 1⟩).requesters[0]? = some { Requester.idle .tick with program := [line] } ∧
    1 + 3 ≤ (inFlight line inv ⟨0, 1⟩).params.capacity ∧
    (inFlight line inv ⟨1, 0⟩).chosen = some 1 ∧
    (inFlight line inv ⟨1, 0⟩).requesters[1]? = some { Requester.idle .serve with inFlight := some inv } := by decide

/-- A write that is issued at the end of a bank, and the second of two units of one in flight. -/
theorem witness_WriteUnitsStoreTheirWordsAndNoOther :
    let line := Line.memWrite .hr 98 [.lit 9, .lit 8]
    let inv := Invocation.mk .ir [[1, 2], [3]] (.write [(1, 9), (2, 8), (3, 7)])
    (∀ turn ∈ [Turn.mk 0 0, ⟨1, 1⟩], (inFlight line inv turn).wf = true) ∧
    (inFlight line inv ⟨0, 0⟩).chosen = some 0 ∧
    (inFlight line inv ⟨0, 0⟩).requesters[0]? = some { Requester.idle .tick with program := [line] } ∧
    evalWords [] [.lit 9, .lit 8] = .ok [9, 8] ∧ 98 + 2 ≤ (inFlight line inv ⟨0, 0⟩).params.capacity ∧
    (inFlight line inv ⟨1, 1⟩).chosen = some 1 ∧
    (inFlight line inv ⟨1, 1⟩).requesters[1]? = some { Requester.idle .serve with inFlight := some inv } := by decide

/-- R53, by hand: a write in flight stores its chosen unit over a word that changed since it was issued, and no other. -/
theorem test_one_unit_of_a_write_in_flight :
    let s := inFlight (.memRead .ir 1 3 0) ⟨.ir, [[1, 2], [3]], .write [(1, 9), (2, 8), (3, 7)]⟩ ⟨1, 1⟩
    wordAfter s .ir 3 = some 7 ∧ wordAfter s .ir 1 = some 0x0001 ∧ wordAfter s .ir 2 = some 0xFFFF := by decide

/-- `WordsChangeOnlyByWrites` and the `IR` clause of `WriterDisciplineDecidesWhoWrites`. -/
theorem witness_IrWordChanges :
    let s := scene .pair [.memWrite .ir 1 [.lit 3, .lit 4]] [] [⟨0, 0⟩]
    wordAfter s .ir 1 = some 3 ∧ s.readWord .ir 1 = 1 ∧ s.writerDiscipline = true := by decide

/-- The `HR` clause of `WriterDisciplineDecidesWhoWrites`. -/
theorem witness_HrWordChanges :
    let s := scene .pair [] [.memWrite .hr 0 [.lit 3]] [⟨0, 0⟩]
    wordAfter s .hr 0 = some 3 ∧ s.readWord .hr 0 = 1 ∧ s.writerDiscipline = true := by decide

/-- The values of the witness of `PairsAreNeverTornUnderConformingAtomicity`. -/
def oldOrNew (v : Val32) : Prop := v = 0x0001FFFF ∨ v = 0x00020000

/-- A well-formed state in which `TICK` is about to store the new value to the pair that holds the old one. -/
theorem witness_PairsAreNeverTornUnderConformingAtomicity :
    ∃ s t : State, s.wf = true ∧ s.params.atomicity.conforming = true ∧ s.pairKept .ir 1 oldOrNew ∧
      s.issuesPairsWhole .ir 1 oldOrNew ∧ step s = .next t ∧ t.readWord .ir 1 = 0x0002 ∧ t.readWord .ir 2 = 0x0000 := by
  refine ⟨State.tornScene .pair 0x0001FFFF 0x00020000 [⟨0, 0⟩], _, by decide, rfl, ⟨?_, ?_⟩, ?_, rfl, by decide, by decide⟩
  · exact .inl (by decide)
  · intro q hq inv hi
    simp only [State.tornScene, List.mem_cons, List.mem_nil_iff, or_false] at hq
    rcases hq with rfl | rfl <;> cases hi
  · intro who q start os rest ws hw hq _ hp hws _ _
    have h0 : who = 0 := by
      have hc : (State.tornScene .pair 0x0001FFFF 0x00020000 [⟨0, 0⟩]).chosen = some 0 := by decide
      rw [hc] at hw
      exact (Option.some.inj hw).symm
    subst h0
    simp only [State.tornScene, List.getElem?_cons_zero, Option.some.injEq] at hq
    subst hq
    simp only [List.cons.injEq, Line.memWrite.injEq] at hp
    obtain ⟨⟨_, rfl, rfl⟩, _⟩ := hp
    simp only [evalWords, evalWord, Except.ok.injEq] at hws
    subst hws
    exact ⟨.inr (.inl (by simp)), 0, 0x0002, 0x0000, rfl, rfl, rfl, .inr (by decide)⟩

theorem witness_PairsCanBeTornUnderWord :
    ((hiWord 0x00020000, loWord 0x0001FFFF) : Word × Word) ∈
      [(hiWord 0x00020000, loWord 0x0001FFFF), (hiWord 0x0001FFFF, loWord 0x00020000),
        (hiWord 0x0001FFFF, loWord 0x0001FFFF), (hiWord 0x00020000, loWord 0x00020000)] := by decide

theorem witness_PairsAreWholeInTheSameScene :
    Atomicity.conforming .pair = true ∧ Atomicity.conforming .full = true := by decide

/-- `FieldStoreLeavesHiThenLo` at the last valid address and `FieldStorePastTheEndWritesNothing` at the next, both kinds. -/
theorem witness_FieldStores :
    let q (a : Nat) (k : ValueKind) : Requester :=
      { Requester.idle .serve with program :=
          match k with
          | .int32 => (Pseudo.sti32 .hr a (.lit 5)).expand 0 ++ []
          | .float32 => (Pseudo.stf32 .hr a (.lit 5)).expand 0 ++ [] }
    (∀ k ∈ [ValueKind.int32, .float32], (scene .full [] (q 98 k).program []).requesters[1]? = some (q 98 k)) ∧
    98 + 2 ≤ (scene .full [] [] []).params.capacity ∧ (scene .full [] [] []).params.capacity < 99 + 2 ∧
    evalVal [] (.lit 5) = .ok 5 := by decide

/-- `FieldLoadJoinsTheWords` and `FieldLoadAfterFieldStoreGivesTheValue` at the last valid address. -/
theorem witness_FieldLoads :
    let p := (Pseudo.sti32 .hr 98 (.lit 5)).expand 0 ++ (Pseudo.ldf32 .hr 98 3).expand 1 ++ []
    (scene .pair p [] []).requesters[0]? = some { Requester.idle .tick with program := p } ∧
    (scene .pair ((Pseudo.ldi32 .hr 98 3).expand 1) [] []).requesters[0]? =
      some { Requester.idle .tick with program := (Pseudo.ldi32 .hr 98 3).expand 1 ++ [] } ∧
    98 + 2 ≤ (params .pair).capacity := by decide

/-- At the first address past the last valid pair, both kinds. -/
theorem witness_FieldLoadPastTheEndIssuesNoDecode :
    (∀ p ∈ [Pseudo.ldi32 .ir 99 3, Pseudo.ldf32 .ir 99 3],
      (scene .pair (p.expand 0 ++ []) [] []).requesters[0]? = some { Requester.idle .tick with program := p.expand 0 ++ [] }) ∧
    (params .pair).capacity < 99 + 2 := by decide

/-- `TICK` stores a pair and loads it again; between its turns `SERVE` reads the pair, writes the word below it, and reads
again. -/
def interleaved (turns : List Turn) : State :=
  scene .pair ((Pseudo.sti32 .hr 98 (.lit 5)).expand 0 ++ (Pseudo.ldf32 .hr 98 3).expand 1 ++ [])
    [.memRead .hr 98 2 0, .memWrite .hr 97 [.lit 7], .memRead .hr 98 2 1] turns

/-- All the hypotheses of `FieldLoadAfterFieldStoreWithOtherTurnsBetween` together, with a step of `SERVE` in each gap. -/
theorem witness_FieldLoadAfterFieldStoreWithOtherTurnsBetween :
    ∃ s s₁ s₂ s₃ s₄ s₅ s₆ : State, s.chosen = some 0 ∧ 98 + 2 ≤ s.params.capacity ∧
      s.params.atomicity.conforming = true ∧
      s.requesters[0]? = some
        { Requester.idle .tick with
          program := (Pseudo.sti32 .hr 98 (.lit 5)).expand 0 ++ (Pseudo.ldf32 .hr 98 3).expand 1 ++ [] } ∧
      step s = .next s₁ ∧ State.othersTake 0 (fun _ => True) 1 s₁ s₂ ∧ s₂.chosen = some 0 ∧
      step s₂ = .next s₃ ∧ State.othersTake 0 (State.sparesPair .hr 98) 1 s₃ s₄ ∧ s₄.chosen = some 0 ∧
      step s₄ = .next s₅ ∧ State.othersTake 0 (fun _ => True) 1 s₅ s₆ ∧ s₆.chosen = some 0 := by
  refine ⟨interleaved [⟨0, 0⟩, ⟨1, 0⟩, ⟨0, 0⟩, ⟨1, 0⟩, ⟨0, 0⟩, ⟨1, 0⟩, ⟨0, 0⟩], _, _, _, _, _, _, by decide, by decide,
    by decide, by decide, rfl, ⟨by decide, trivial, _, rfl, rfl⟩, by decide, rfl, ⟨by decide, ?_, _, rfl, rfl⟩, by decide,
    rfl, ⟨by decide, trivial, _, rfl, rfl⟩, by decide⟩
  intro who q hc hq
  obtain rfl : 1 = who := Option.some.inj hc
  obtain rfl := Option.some.inj hq
  decide

theorem witness_RawWordsMoveUnchanged :
    (scene .word ((Pseudo.stw .hr 99 (.lit 5)).expand 0) ((Pseudo.ldw .hr 99 2).expand 0) []).requesters.map (·.program) =
      [(Pseudo.stw .hr 99 (.lit 5)).expand 0 ++ [], (Pseudo.ldw .hr 99 2).expand 0 ++ []] ∧
    evalWord [] (.lit 5) = .ok 5 ∧ 99 + 1 ≤ (params .word).capacity := by decide

theorem witness_AddressMapFieldsAreDisjoint :
    FieldId.pump2Outflow.field.holds .ir 11 = true ∧ FieldId.pump2Outflow.field.holds .ir 12 = true ∧
    FieldId.pump2Outflow.field.holds .ir 13 = false ∧ FieldId.controlMode.field.holds .hr 0 = true := by decide

/-- The canonical form after a store, from the law: reset's memory has it, and a store to the last word keeps it. -/
theorem witness_store_wf : (Memory.empty.store (params .pair) .hr 99 5).wf (params .pair) = true :=
  store_wf _ _ _ _ _ (empty_wf _) (by decide)

end Sys2Proof.Tests
end

section
/-! PROOFS. The statements of the scope: which integers and which binary32 values a pattern stands for (R10, R11, R14), and
whose step a step is (R6, R7, R22). -/

namespace Sys2Proof.Machine

/-! ### The pattern of an integer (R10, R11) -/

/-- An integer has a pattern exactly in the range of R11, and it is the integer modulo `2^32`. -/
theorem pat32_eq_some_iff (v : Int) (p : Val32) :
    pat32 v = some p ↔ (-(2 : Int) ^ 31 ≤ v ∧ v ≤ 2 ^ 32 - 1) ∧ BitVec.ofInt 32 v = p := by
  simp [pat32]

theorem pat32_isSome_iff (v : Int) : (pat32 v).isSome = true ↔ -(2 : Int) ^ 31 ≤ v ∧ v ≤ 2 ^ 32 - 1 := by
  simp [Option.isSome_iff_exists, pat32_eq_some_iff]

theorem signedReading_eq_toInt {n : Nat} (v : BitVec n) : signedReading v = v.toInt := by
  simp [signedReading, BitVec.toInt_eq_msb_cond]

theorem unsignedReading_ofInt (n : Nat) (v : Int) : (unsignedReading (BitVec.ofInt n v) : Int) = v % 2 ^ n := by
  have hpos : (0 : Int) < 2 ^ n := by positivity
  have hmod := Int.emod_nonneg v hpos.ne'
  simp [unsignedReading, BitVec.toNat_ofInt, hmod]

/-- Below `2^31` the two's-complement reading of the pattern is the integer again. -/
theorem signedReading_ofInt_of_range (v : Int) (hlo : -(2 : Int) ^ 31 ≤ v) (hhi : v ≤ 2 ^ 31 - 1) :
    signedReading (BitVec.ofInt 32 v) = v := by
  rw [signedReading_eq_toInt, BitVec.toInt_ofInt]
  exact Int.bmod_eq_of_le (by omega) (by omega)

/-- Settles O17: the pattern is `v mod 2^32`, and the bound on `v` says which of the two readings gives `v` back. -/
theorem integerOperandsArePresentableExactlyInRange : Obligations.IntegerOperandsArePresentableExactlyInRange := by
  refine ⟨pat32_isSome_iff, fun v p h => ?_⟩
  obtain ⟨⟨hlo, hhi⟩, rfl⟩ := (pat32_eq_some_iff v p).1 h
  refine ⟨unsignedReading_ofInt 32 v, signedReading_ofInt_of_range v hlo, fun hbig => ?_⟩
  rw [unsignedReading_ofInt]
  exact Int.emod_eq_of_lt (by omega) (by omega)

/-! ### The pattern of a binary32 value (R14) -/

/-- A pattern is its three fields put together again. -/
theorem packF32_fields (p : Val32) : packF32 (f32Sign p) (f32Exponent p) (f32Fraction p) = p := by
  apply BitVec.eq_of_getLsbD_eq
  intro i hi
  simp only [packF32, f32Sign, f32Exponent, f32Fraction, BitVec.ofNat_toNat, BitVec.setWidth_eq, BitVec.getLsbD_append,
    BitVec.getLsbD_extractLsb', BitVec.getLsbD_ofBool]
  by_cases hfrac : i < 23
  · simp [hfrac]
  · by_cases hexp : i - 23 < 8
    · simp [hfrac, hexp, show 23 + (i - 23) = i by omega]
    · obtain rfl : i = 31 := by omega
      simp

/-- The fraction is the quiet bit above the payload of a NaN. -/
theorem f32Fraction_eq_quiet_append_payload (p : Val32) :
    f32Fraction p = (BitVec.ofBool (p.getLsbD 22) ++ p.extractLsb' 0 22).toNat := by
  unfold f32Fraction
  congr 1
  apply BitVec.eq_of_getLsbD_eq
  intro i hi
  simp only [BitVec.getLsbD_append, BitVec.getLsbD_extractLsb', BitVec.getLsbD_ofBool]
  by_cases hpay : i < 22
  · simp [hpay, hi]
  · obtain rfl : i = 22 := by omega
    simp

/-- The pattern a binary32 value is the value of: the left inverse of `f32val`. -/
def F32.pattern : F32 → Val32
  | .zero neg => packF32 neg 0 0
  | .subnormal neg m => packF32 neg 0 m
  | .normal neg m e => packF32 neg (e + 150).toNat (m - 2 ^ 23)
  | .infinity neg => packF32 neg 255 0
  | .nan neg quiet payload => packF32 neg 255 (BitVec.ofBool quiet ++ payload).toNat

/-- The value of a pattern determines the pattern. -/
theorem pattern_f32val (p : Val32) : (f32val p).pattern = p := by
  have hfields := packF32_fields p
  unfold f32val
  split
  next hexp =>
    split
    next hfrac => rwa [hexp, hfrac] at hfields
    next => rwa [hexp] at hfields
  next =>
    split
    next hexp =>
      split
      next hfrac => rwa [hexp, hfrac] at hfields
      next => rwa [hexp, f32Fraction_eq_quiet_append_payload] at hfields
    next => simpa [F32.pattern] using hfields

/-- Settles O18: `F32.pattern` is a left inverse of `f32val`. -/
theorem binaryPatternsAreDeterminedByTheirValue : Obligations.BinaryPatternsAreDeterminedByTheirValue :=
  fun _ _ h => Function.LeftInverse.injective pattern_f32val h

/-! ### What a step changes (R7, R8, R53) -/

theorem Moved.params {who : Nat} {s t : State} (h : Moved who s t) : t.params = s.params := by
  obtain ⟨_, hparams, _⟩ := h
  exact hparams

theorem Moved.turns {who : Nat} {s t : State} (h : Moved who s t) : t.turns = s.turns := by
  obtain ⟨_, _, hturns, _⟩ := h
  exact hturns

/-- What one requester does changes no requester's role. -/
theorem Moved.roles {who : Nat} {s t : State} (h : Moved who s t) :
    t.requesters.map (·.role) = s.requesters.map (·.role) := by
  obtain ⟨⟨f, hf, e⟩, _⟩ := h
  apply List.ext_getElem?
  intro k
  by_cases hk : who = k <;> simp [e, hk, Function.comp_def, hf]

/-- What requester 0 does leaves the requesters behind it as they are. -/
theorem Moved.tail {s t : State} (h : Moved 0 s t) : t.requesters.tail = s.requesters.tail := by
  obtain ⟨⟨f, _, e⟩, _⟩ := h
  rw [e]
  cases s.requesters <;> rfl

/-- Settles O28: a step is nothing, or something one requester does. -/
theorem stepsMoveOneRequesterAndKeepTheParameters : Obligations.StepsMoveOneRequesterAndKeepTheParameters := by
  intro s t h
  rcases step_cases s t h with ⟨hc, rfl⟩ | ⟨who, hc, _, hm⟩
  · exact ⟨rfl, rfl, .inl ⟨hc, rfl⟩⟩
  · exact ⟨hm.params, hm.roles, .inr ⟨who, hc, hm.other⟩⟩

/-! ### The command a step runs (R6, R7, R22) -/

/-- A step is the turn of the requester it goes to. -/
theorem step_of_chosen {s : State} {who : Nat} (h : s.chosen = some who) :
    step s = takeTurn who s.nextTurn.unit s.spendTurn := by
  simp [step, h]

/-- The turn of a requester with nothing in flight runs its next line, which is taken off its program. -/
theorem takeTurn_of_line {s : State} {who : Nat} {q : Requester} {line : Line} {rest : List Line} (c : Nat)
    (hq : s.requesters[who]? = some q) (hf : q.inFlight = none) (hp : q.program = line :: rest) :
    takeTurn who c s = runLine who c q.names rest line (s.modifyRequester who (·.withProgram rest)) := by
  simp [takeTurn, hq, hf, hp]

/-- Settles O23: the turn issues the command on the requester's next line. -/
theorem stepRunsThePresentedCommand : Obligations.StepRunsThePresentedCommand := by
  intro s who q cw d rest hc hq hf hp
  rw [step_of_chosen hc, takeTurn_of_line _ (spendTurn_requesters s ▸ hq) hf hp]
  rfl

theorem decodeTableWord_of_lt (nbits : Nat) {w : Nat} (h : w < 2 ^ 42) :
    decodeTableWord nbits w = some (decode (BitVec.ofNat 42 w)) := by
  simp only [decodeTableWord, decodeBits, if_pos h]

/-- The next turn goes to the requester that presents the placed word. -/
theorem chosen_withFetchWord (s : State) (nbits w : Nat) : (s.withFetchWord nbits w).chosen = some 0 := by
  have hturn : (s.withFetchWord nbits w).nextTurn.who = 0 := rfl
  have hrun : (s.withFetchWord nbits w).runnable = 0 :: movable 1 s.requesters := rfl
  simp [State.chosen, hturn, hrun]

/-- The step after placing a word issues its command for the requester put in front. -/
theorem step_withFetchWord (s : State) (nbits w : Nat) :
    step (s.withFetchWord nbits w) =
      issue 0 0 (decode (BitVec.ofNat 42 w)) ((s.withFetchWord nbits w).spendTurn.modifyRequester 0 (·.withProgram [])) :=
  stepRunsThePresentedCommand _ 0 _ _ 0 [] (chosen_withFetchWord s nbits w) rfl rfl rfl

/-- Settles O25: the placed command is the one issued at the next turn, and its answer moves only who presents it. -/
theorem placedWordRunsNext : Obligations.PlacedWordRunsNext := by
  intro s nbits w hw
  have hissue := issue_eq 0 0 (decode (BitVec.ofNat 42 w))
    ((s.withFetchWord nbits w).spendTurn.modifyRequester 0 (·.withProgram []))
  obtain ⟨hm, _⟩ := moved_issue _ _ _ _ _ hissue
  exact ⟨_, _, _, decodeTableWord_of_lt nbits hw, rfl, step_withFetchWord s nbits w, hissue, rfl, rfl, rfl, rfl, hm.tail,
    hm.turns⟩

end Sys2Proof.Machine
end

section
/-! PROOFS. The state (`10_state.md`): the canonical form of the banks, the address map, reset, and the invariant that every
step keeps. -/

namespace Sys2Proof.Machine

/-! ### The response of the codec unit (R20) -/

/-- Settles O13: the response and the binding are those of the pure unit. -/
theorem responseDependsOnTheCommandAlone : Obligations.ResponseDependsOnTheCommandAlone :=
  fun i => ⟨responseOf i, boundValue i, exec_eq_deliver i⟩

/-! ### The canonical form of the banks (R26, R34) -/

/-- A word that is listed stands in the list. -/
theorem mem_of_lookupCell {a : Nat} {w : Word} {c : List WordCell} (h : lookupCell a c = some w) : (a, w) ∈ c := by
  induction c with
  | nil => simp [lookupCell] at h
  | cons g t ih =>
    obtain ⟨x, v⟩ := g
    simp only [lookupCell] at h
    split at h
    next hx =>
      obtain rfl := Option.some.inj h
      exact hx ▸ List.mem_cons_self ..
    next => exact List.mem_cons_of_mem _ (ih h)

/-- In the canonical form what a load reads says what is listed: a word is listed exactly when it is not `BANK_INIT`. -/
theorem lookupCell_of_wf {p : Params} {m : Memory} (h : m.wf p = true) (b : Bank) (a : Nat) :
    lookupCell a (m.cells b) = if m.load p b a = p.initWord b a then none else some (m.load p b a) := by
  unfold Memory.load
  cases hl : lookupCell a (m.cells b) with
  | none => simp
  | some w =>
    obtain ⟨_, hcells⟩ := (memory_wf_iff p m).1 h b
    obtain ⟨_, hne⟩ := hcells _ (mem_of_lookupCell hl)
    simp [hne]

theorem memory_eq_of_cells {m m' : Memory} (h : ∀ b, m.cells b = m'.cells b) : m = m' := by
  cases m
  cases m'
  simp only [Memory.mk.injEq]
  exact ⟨h .di, h .co, h .hr, h .ir⟩

/-- Settles O29: in each bank the loads say what is listed at every address, and a rising list is what it lists. -/
theorem canonicalMemoriesThatReadAlikeAreEqual : Obligations.CanonicalMemoriesThatReadAlikeAreEqual := by
  intro p m m' h h' hload
  refine memory_eq_of_cells fun b => ?_
  obtain ⟨hrising, _⟩ := (memory_wf_iff p m).1 h b
  obtain ⟨hrising', _⟩ := (memory_wf_iff p m').1 h' b
  refine rising_ext _ _ hrising hrising' fun a => ?_
  rw [lookupCell_of_wf h, lookupCell_of_wf h', hload]

/-! ### The address map (R28, R29, R30) -/

theorem mem_allFields (f : FieldId) : f ∈ allFields := by
  cases f <;> decide

theorem holds_iff (f : Field) (b : Bank) (a : Nat) :
    f.holds b a = true ↔ f.bank = b ∧ f.addr ≤ a ∧ a < f.addr + f.width := by
  simp [Field.holds]

/-- Two rows of the tables of R29 and R30 are in different banks, or one ends before the other begins. -/
theorem fields_apart : ∀ f ∈ allFields, ∀ g ∈ allFields, f ≠ g →
    f.field.bank ≠ g.field.bank ∨ f.field.addr + f.field.width ≤ g.field.addr ∨
      g.field.addr + g.field.width ≤ f.field.addr := by
  decide

theorem eq_of_holds {f g : FieldId} {b : Bank} {a : Nat} (hf : f.field.holds b a = true) (hg : g.field.holds b a = true) :
    f = g := by
  by_contra hne
  obtain ⟨hfb, hfa, hfa'⟩ := (holds_iff ..).1 hf
  obtain ⟨hgb, hga, hga'⟩ := (holds_iff ..).1 hg
  rcases fields_apart f (mem_allFields f) g (mem_allFields g) hne with hbank | hafter | hbefore
  · exact hbank (hfb.trans hgb.symm)
  · omega
  · omega

theorem holds_of_fieldAt {b : Bank} {a : Nat} {f : FieldId} (h : fieldAt b a = some f) : f.field.holds b a = true :=
  List.find?_some (p := fun f : FieldId => f.field.holds b a) h

/-- The field found at a word is the one that holds it. -/
theorem fieldAt_eq_some_iff (b : Bank) (a : Nat) (f : FieldId) : fieldAt b a = some f ↔ f.field.holds b a = true := by
  refine ⟨holds_of_fieldAt, fun h => ?_⟩
  cases hfind : fieldAt b a with
  | none => exact absurd h (List.find?_eq_none.1 hfind f (mem_allFields f))
  | some g => rw [eq_of_holds h (holds_of_fieldAt hfind)]

theorem allFields_extent : ∀ f ∈ allFields, f.field.addr + f.field.width ≤ 13 ∧
    (f.field.width = 2 → f.field.addr % 2 = 1) ∧ (f.field.bank = .hr ∨ f.field.bank = .ir) := by
  decide

/-- Settles O48: the rows are apart, so at most one of them holds a word. -/
theorem addressMapFieldsAreDisjoint : Obligations.AddressMapFieldsAreDisjoint := by
  refine ⟨fun f => allFields_extent f (mem_allFields f), fun _ _ _ _ => eq_of_holds, fun f a => ?_⟩
  rw [fieldAt_eq_some_iff, holds_iff]
  simp

/-! ### Well-formed requesters and states, taken apart -/

theorem state_wf_iff (s : State) :
    s.wf = true ↔ Config.capacityAllowed s.params.capacity = true ∧ s.memory.wf s.params = true ∧
      ∀ q ∈ s.requesters, q.wf s.params = true := by
  simp [State.wf, and_assoc]

/-- A requester that is not faulted and has nothing in flight is well-formed when its program is. -/
theorem requester_wf_eq_programOk (p : Params) {q : Requester} (hfault : q.fault = none) (hidle : q.inFlight = none) :
    q.wf p = programOk (shapesOf q.names) q.program := by
  simp [Requester.wf, Requester.shapes, hfault, hidle]

theorem requester_wf_of_programOk (p : Params) {q : Requester} (hfault : q.fault = none) (hidle : q.inFlight = none)
    (hprog : programOk (shapesOf q.names) q.program = true) : q.wf p = true :=
  (requester_wf_eq_programOk p hfault hidle).trans hprog

/-- A failure leaves a requester with nothing in flight well-formed, whatever its program (R137). -/
theorem fail_wf (p : Params) {q : Requester} (c : Cause) (hidle : q.inFlight = none) : (q.fail c).wf p = true := by
  simp [Requester.wf, hidle]

theorem withInFlight_wf_iff (p : Params) (q : Requester) (inv : Invocation) :
    (q.withInFlight inv).wf p = true ↔
      q.fault = none ∧ inv.wf p = true ∧ programOk (q.withInFlight inv).shapes q.program = true := by
  cases hfault : q.fault <;> simp [Requester.wf, hfault]

theorem shapes_withInFlight_read (q : Requester) {inv : Invocation} {got : List WordCell} (h : inv.access = .read got) :
    (q.withInFlight inv).shapes = (q.dest, .words (got.length + inv.addrsLeft.length)) :: shapesOf q.names := by
  simp [Requester.shapes, h]

theorem shapes_withInFlight_write (q : Requester) {inv : Invocation} {cells : List WordCell}
    (h : inv.access = .write cells) : (q.withInFlight inv).shapes = shapesOf q.names := by
  simp [Requester.shapes, h]

theorem idle_wf (p : Params) (r : Role) : (Requester.idle r).wf p = true := rfl

/-! ### Reset (R34, R151) -/

@[simp] theorem cells_empty (b : Bank) : Memory.empty.cells b = [] := by
  cases b <;> rfl

theorem readWord_reset (b : Bank) (a : Nat) : State.reset.readWord b a = Config.bankInit b a := by
  simp [State.readWord, Memory.load, Params.initWord, State.reset, lookupCell]

theorem reset_wf : State.reset.wf = true := by
  refine (state_wf_iff _).2 ⟨by decide, empty_wf _, fun q hq => ?_⟩
  rcases List.mem_pair.1 hq with rfl | rfl <;> exact idle_wf _ _

/-- Settles O50: nothing is listed after reset, and both requesters are idle. -/
theorem resetLeavesBankInit : Obligations.ResetLeavesBankInit :=
  ⟨readWord_reset, rfl, rfl, by decide, by decide, reset_wf⟩

end Sys2Proof.Machine
end

section
/-! PROOFS. The invariant: a well-formed state answers a well-formed state (R26, R43, R47, R80, R137). -/

namespace Sys2Proof.Machine

/-! ### Invocations in flight, taken apart (R47) -/

/-- The units left of an invocation: there is one, no address is left twice, and each is within the capacity. -/
def UnitsWf (p : Params) (pending : List (List Nat)) : Prop :=
  pending ≠ [] ∧ pending.flatten.Nodup ∧ ∀ a ∈ pending.flatten, a < p.capacity

theorem UnitsWf.ne_nil {p : Params} {pending : List (List Nat)} (h : UnitsWf p pending) : pending ≠ [] := by
  obtain ⟨hne, _⟩ := h
  exact hne

theorem invocation_wf_read_iff (p : Params) {inv : Invocation} {got : List WordCell} (h : inv.access = .read got) :
    inv.wf p = true ↔
      UnitsWf p inv.pending ∧ risingCells got = true ∧ ∀ c ∈ got, c.1 ∉ inv.pending.flatten := by
  simp only [Invocation.wf, h, Bool.and_eq_true, List.all_eq_true, decide_eq_true_eq, Bool.not_eq_true',
    List.isEmpty_eq_false_iff, List.contains_eq_mem, decide_eq_false_iff_not]
  simp only [UnitsWf, Invocation.addrsLeft, and_assoc]

theorem invocation_wf_write_iff (p : Params) {inv : Invocation} {cells : List WordCell} (h : inv.access = .write cells) :
    inv.wf p = true ↔
      UnitsWf p inv.pending ∧ risingCells cells = true ∧ (∀ c ∈ cells, c.1 < p.capacity) ∧
        ∀ a ∈ inv.pending.flatten, (lookupCell a cells).isSome = true := by
  simp only [Invocation.wf, h, Bool.and_eq_true, List.all_eq_true, decide_eq_true_eq, Bool.not_eq_true',
    List.isEmpty_eq_false_iff]
  simp only [UnitsWf, Invocation.addrsLeft, and_assoc]

/-- An address left after a unit was left before it. -/
theorem mem_pending_of_mem_unitsLeft {inv : Invocation} (c : Nat) {a : Nat} (h : a ∈ (unitsLeft inv c).flatten) :
    a ∈ inv.pending.flatten :=
  (List.eraseIdx_sublist ..).flatten.subset h

/-- The units after the one taken are still well-formed, while there are any. -/
theorem unitsLeft_wf {p : Params} {inv : Invocation} (c : Nat) (h : UnitsWf p inv.pending)
    (hleft : unitsLeft inv c ≠ []) : UnitsWf p (unitsLeft inv c) := by
  obtain ⟨_, hnodup, hcap⟩ := h
  exact ⟨hleft, hnodup.sublist (List.eraseIdx_sublist ..).flatten, fun a ha => hcap a (mem_pending_of_mem_unitsLeft c ha)⟩

/-- The unit taken lists no address twice, and none that is left after it. -/
theorem chosenUnit_nodup_append {p : Params} {inv : Invocation} (c : Nat) (h : UnitsWf p inv.pending) :
    (chosenUnit inv c ++ (unitsLeft inv c).flatten).Nodup := by
  obtain ⟨hne, hnodup, _⟩ := h
  exact (chosenUnit_append_unitsLeft inv c hne).nodup_iff.2 hnodup

theorem mem_pending_of_mem_chosenUnit {p : Params} {inv : Invocation} (c : Nat) (h : UnitsWf p inv.pending) {a : Nat}
    (ha : a ∈ chosenUnit inv c) : a ∈ inv.pending.flatten :=
  List.mem_flatten_of_mem (chosenUnit_mem inv c h.ne_nil) ha

/-! ### The words a read has taken (R41) -/

theorem mem_gather {s : State} {b : Bank} {u : List Nat} {got : List WordCell} {x : WordCell} (h : x ∈ s.gather b u got) :
    x.1 ∈ u ∨ x ∈ got := by
  induction u generalizing got with
  | nil => exact .inr h
  | cons a u ih =>
    rcases ih h with hu | hgot
    · exact .inl (List.mem_cons_of_mem _ hu)
    · rcases mem_insertCell _ _ _ _ hgot with rfl | hgot
      · exact .inl (List.mem_cons_self ..)
      · exact .inr hgot

theorem length_insertCell {a : Nat} (w : Word) {c : List WordCell} (h : ∀ x ∈ c, x.1 ≠ a) :
    (insertCell a w c).length = c.length + 1 := by
  induction c with
  | nil => rfl
  | cons g t ih =>
    obtain ⟨x, v⟩ := g
    obtain ⟨hx, ht⟩ := List.forall_mem_cons.1 h
    simp only [insertCell, if_neg hx.symm]
    split
    · rfl
    · simp [ih ht]

/-- A unit of new addresses adds as many words as it has addresses. -/
theorem length_gather (s : State) (b : Bank) {u : List Nat} {got : List WordCell} (hnodup : u.Nodup)
    (hnew : ∀ x ∈ got, x.1 ∉ u) : (s.gather b u got).length = got.length + u.length := by
  induction u generalizing got with
  | nil => rfl
  | cons a u ih =>
    obtain ⟨hau, hu⟩ := List.nodup_cons.1 hnodup
    have hnew' : ∀ x ∈ insertCell a (s.readWord b a) got, x.1 ∉ u := fun x hx => by
      rcases mem_insertCell _ _ _ _ hx with rfl | hx
      · exact hau
      · exact fun hxu => hnew x hx (List.mem_cons_of_mem _ hxu)
    have ha : ∀ x ∈ got, x.1 ≠ a := fun x hx hxa => hnew x hx (hxa ▸ List.mem_cons_self ..)
    rw [State.gather, ih hu hnew', length_insertCell _ ha, List.length_cons]
    omega

/-- The words taken and the addresses left are, after a unit, as many together as before it. -/
theorem length_gather_add_unitsLeft (s : State) {p : Params} {inv : Invocation} {got : List WordCell} (c : Nat)
    (haccess : inv.access = .read got) (h : inv.wf p = true) :
    (s.gather inv.bank (chosenUnit inv c) got).length + (unitsLeft inv c).flatten.length =
      got.length + inv.addrsLeft.length := by
  obtain ⟨hunits, _, hnew⟩ := (invocation_wf_read_iff p haccess).1 h
  obtain ⟨hnodup, _⟩ := List.nodup_append.1 (chosenUnit_nodup_append c hunits)
  have hlength := (chosenUnit_append_unitsLeft inv c hunits.ne_nil).length_eq
  rw [length_gather s inv.bank hnodup fun x hx hxu => hnew x hx (mem_pending_of_mem_chosenUnit c hunits hxu)]
  rw [List.length_append] at hlength
  simp only [Invocation.addrsLeft]
  omega

/-! ### What is in flight after a unit (R47) -/

theorem invocation_wf_after_read_unit (s : State) {p : Params} {inv : Invocation} {got : List WordCell} (c : Nat)
    (haccess : inv.access = .read got) (h : inv.wf p = true) (hleft : unitsLeft inv c ≠ []) :
    Invocation.wf p
      { bank := inv.bank, pending := unitsLeft inv c,
        access := .read (s.gather inv.bank (chosenUnit inv c) got) } = true := by
  obtain ⟨hunits, hrising, hnew⟩ := (invocation_wf_read_iff p haccess).1 h
  refine (invocation_wf_read_iff p rfl).2
    ⟨unitsLeft_wf c hunits hleft, gather_rising _ _ _ _ hrising, fun x hx hmem => ?_⟩
  rcases mem_gather hx with hu | hgot
  · exact List.disjoint_of_nodup_append (chosenUnit_nodup_append c hunits) hu hmem
  · exact hnew x hgot (mem_pending_of_mem_unitsLeft c hmem)

theorem invocation_wf_after_write_unit {p : Params} {inv : Invocation} {cells : List WordCell} (c : Nat)
    (haccess : inv.access = .write cells) (h : inv.wf p = true) (hleft : unitsLeft inv c ≠ []) :
    Invocation.wf p { bank := inv.bank, pending := unitsLeft inv c, access := .write cells } = true := by
  obtain ⟨hunits, hrising, hcap, hlisted⟩ := (invocation_wf_write_iff p haccess).1 h
  exact (invocation_wf_write_iff p rfl).2
    ⟨unitsLeft_wf c hunits hleft, hrising, hcap, fun a ha => hlisted a (mem_pending_of_mem_unitsLeft c ha)⟩

/-! ### The invocation of a valid request (R43, R47) -/

theorem unitsOf_flatten (p : Params) (b : Bank) (a n : Nat) : (unitsOf p b a n).flatten = List.range' a n := by
  unfold unitsOf requestAddrs
  split
  · simp
  · split
    · simp
    · exact groupByField_flatten ..
  · simp [← List.flatMap_def]

theorem unitsOf_wf {p : Params} (b : Bank) {a n : Nat} (h : validRequest p a n = true) : UnitsWf p (unitsOf p b a n) := by
  obtain ⟨hn, hcap⟩ : 1 ≤ n ∧ a + n ≤ p.capacity := by simpa [validRequest] using h
  have hflat := unitsOf_flatten p b a n
  refine ⟨fun hnil => ?_, hflat ▸ List.nodup_range', fun x hx => ?_⟩
  · have := congrArg List.length hflat
    simp [hnil] at this
    omega
  · rw [hflat, List.mem_range'_1] at hx
    omega

theorem invocation_wf_of_memRead {p : Params} (b : Bank) {a n : Nat} (h : validRequest p a n = true) :
    Invocation.wf p { bank := b, pending := unitsOf p b a n, access := .read [] } = true :=
  (invocation_wf_read_iff p rfl).2 ⟨unitsOf_wf b h, rfl, by simp⟩

theorem invocation_wf_of_memWrite {p : Params} (b : Bank) {a : Nat} {ws : List Word}
    (h : validRequest p a ws.length = true) :
    Invocation.wf p
      { bank := b, pending := unitsOf p b a ws.length,
        access := .write ((requestAddrs a ws.length).zip ws) } = true := by
  have hunits := unitsOf_wf b h
  obtain ⟨_, _, hcap⟩ := unitsOf_wf b h
  rw [unitsOf_flatten] at hcap
  refine (invocation_wf_write_iff p rfl).2
    ⟨hunits, rising_zip a ws, fun c hc => hcap _ (List.of_mem_zip hc).1, fun x hx => ?_⟩
  obtain ⟨hlo, hhi⟩ := List.mem_range'_1.1 (unitsOf_flatten p b a ws.length ▸ hx)
  show (lookupCell x ((List.range' a ws.length).zip ws)).isSome = true
  rw [lookupCell_zip, if_pos hlo, List.getElem?_eq_getElem (by omega)]
  rfl

/-! ### What a turn answers -/

theorem resultShape_encCommand (k : ValueKind) (v : Val32) : resultShape (encCommand k v) = .words 2 := by
  cases k <;> rfl

theorem resultShape_decCommand (k : ValueKind) (len : BitVec 8) (payload : Val32) :
    resultShape (decCommand k len payload) = .val := by
  cases k <;> rfl

/-- The memory after a unit of a write is that of its words stored. -/
theorem performUnit_write_memory (who c : Nat) (s : State) {inv : Invocation} {cells : List WordCell}
    (h : inv.access = .write cells) :
    (performUnit who c inv s).memory = (s.writeCells inv.bank (cellsOfUnit (chosenUnit inv c) cells)).memory := by
  simp only [performUnit, h, writeUnit]
  split <;> rfl

/-- The outcome is a next state whose memory is in canonical form and in which requester `who` is well-formed. -/
def AnswersWf (p : Params) (who : Nat) (r : Result) : Prop :=
  ∃ t q, r = .next t ∧ t.memory.wf p = true ∧ t.requesters[who]? = some q ∧ q.wf p = true

section
variable {who : Nat} {s : State} {q : Requester} (hmem : s.memory.wf s.params = true) (hq : s.requesters[who]? = some q)
include hmem hq

/-- A change of the requester alone. -/
theorem answersWf_modifyRequester {f : Requester → Requester} (hwf : (f q).wf s.params = true) :
    AnswersWf s.params who (.next (s.modifyRequester who f)) :=
  ⟨_, f q, rfl, hmem, by simp [hq], hwf⟩

theorem answersWf_performUnit (c : Nat) {inv : Invocation} (hwf : (q.withInFlight inv).wf s.params = true) :
    AnswersWf s.params who (.next (performUnit who c inv s)) := by
  obtain ⟨hfault, hinv, hprog⟩ := (withInFlight_wf_iff s.params q inv).1 hwf
  cases haccess : inv.access with
  | read got =>
    rw [shapes_withInFlight_read q haccess, ← length_gather_add_unitsLeft s c haccess hinv] at hprog
    obtain ⟨hmem', hq'⟩ := performUnit_read who c inv got s q haccess hq
    refine ⟨_, _, rfl, hmem' ▸ hmem, hq', ?_⟩
    split
    next hleft =>
      exact requester_wf_of_programOk _ hfault rfl (by simpa [hleft, shapesOf, Value.shape] using hprog)
    next hleft =>
      refine (withInFlight_wf_iff ..).2 ⟨hfault, invocation_wf_after_read_unit s c haccess hinv hleft, ?_⟩
      rw [shapes_withInFlight_read q rfl]
      exact hprog
  | write cells =>
    rw [shapes_withInFlight_write q haccess] at hprog
    obtain ⟨_, hrising, hcap, _⟩ := (invocation_wf_write_iff s.params haccess).1 hinv
    obtain ⟨_, hq'⟩ := performUnit_write who c inv cells s q haccess hrising hq
    refine ⟨_, _, rfl, ?_, hq', ?_⟩
    · rw [performUnit_write_memory who c s haccess]
      exact writeCells_wf _ _ _ hmem fun x hx => hcap x (List.mem_of_mem_filter hx)
    · split
      next => exact requester_wf_of_programOk _ hfault rfl hprog
      next hleft =>
        refine (withInFlight_wf_iff ..).2 ⟨hfault, invocation_wf_after_write_unit c haccess hinv hleft, ?_⟩
        rw [shapes_withInFlight_write q rfl]
        exact hprog

variable (hfault : q.fault = none) (hidle : q.inFlight = none)
include hfault hidle

theorem answersWf_issue {dest : Name} {i : Instr} {shape : Shape} (hshape : resultShape i = shape)
    (hprog : programOk ((dest, shape) :: shapesOf q.names) q.program = true) :
    AnswersWf s.params who (issue who dest i s) := by
  have hq' : (s.atPorts who dest).requesters[who]? = some (q.await dest) := by simp [hq]
  rcases issue_cases who dest i s with ⟨v, _, e⟩ | ⟨_, e⟩
  · rw [e]
    refine answersWf_modifyRequester (s := s.atPorts who dest) hmem hq' ?_
    rw [← hshape, ← boundValue_shape i v] at hprog
    exact requester_wf_of_programOk _ hfault hidle hprog
  · rw [e]
    exact answersWf_modifyRequester (s := s.atPorts who dest) hmem hq' (fail_wf _ _ hidle)

theorem answersWf_execMemRead (c : Nat) (b : Bank) (a n : Nat)
    (hprog : programOk ((q.dest, .words n) :: shapesOf q.names) q.program = true) :
    AnswersWf s.params who (.next (execMemRead who c b a n s)) := by
  unfold execMemRead
  split
  next hvalid =>
    refine answersWf_performUnit hmem hq c
      ((withInFlight_wf_iff ..).2 ⟨hfault, invocation_wf_of_memRead b hvalid, ?_⟩)
    rw [shapes_withInFlight_read q rfl]
    simpa [Invocation.addrsLeft, unitsOf_flatten] using hprog
  next => exact answersWf_modifyRequester hmem hq (fail_wf _ _ hidle)

theorem answersWf_execMemWrite (c : Nat) (b : Bank) (a : Nat) (ws : List Word)
    (hprog : programOk (shapesOf q.names) q.program = true) :
    AnswersWf s.params who (.next (execMemWrite who c b a ws s)) := by
  unfold execMemWrite
  split
  next hvalid =>
    refine answersWf_performUnit hmem hq c
      ((withInFlight_wf_iff ..).2 ⟨hfault, invocation_wf_of_memWrite b hvalid, ?_⟩)
    rw [shapes_withInFlight_write q rfl]
    exact hprog
  next => exact answersWf_modifyRequester hmem hq (fail_wf _ _ hidle)

/-- A line of a well-formed program has its operands and leaves a well-formed program behind. -/
theorem answersWf_runLine (c : Nat) (line : Line) (hprog : programOk (shapesOf q.names) (line :: q.program) = true) :
    AnswersWf s.params who (runLine who c q.names q.program line s) := by
  obtain ⟨hok, hnext, hskip⟩ := programOk_cons _ _ _ hprog
  cases line with
  | command cw dest => exact answersWf_issue hmem hq hfault hidle rfl hnext
  | enc k v dest =>
    obtain ⟨p, hp⟩ := evalVal_of_ok _ v hok
    simp only [runLine, hp]
    exact answersWf_issue hmem hq hfault hidle (resultShape_encCommand ..) hnext
  | dec k len w0 w1 dest =>
    obtain ⟨hok0, hok1⟩ := Bool.and_eq_true_iff.1 hok
    obtain ⟨a, ha⟩ := evalWord_of_ok _ w0 hok0
    obtain ⟨b, hb⟩ := evalWord_of_ok _ w1 hok1
    simp only [runLine, ha, hb]
    exact answersWf_issue hmem hq hfault hidle (resultShape_decCommand ..) hnext
  | decSeq k x dest =>
    obtain ⟨ws, hws⟩ := evalSeq_of_ok _ x hok
    simp only [runLine, hws]
    exact answersWf_issue hmem hq hfault hidle (resultShape_decCommand ..) hnext
  | memRead b a n dest =>
    have hq' : (s.modifyRequester who (·.await dest)).requesters[who]? = some (q.await dest) := by simp [hq]
    exact answersWf_execMemRead (s := s.modifyRequester who (·.await dest)) hmem hq' hfault hidle c b a n hnext
  | memWrite b a ws =>
    obtain ⟨words, hwords, _⟩ := evalWords_of_ok _ ws hok
    simp only [runLine, hwords]
    exact answersWf_execMemWrite hmem hq hfault hidle c b a words hnext
  | skipIfZero o n =>
    obtain ⟨w, hw⟩ := evalWord_of_ok _ o hok
    simp only [runLine, hw]
    split
    next => exact answersWf_modifyRequester hmem hq (requester_wf_of_programOk _ hfault hidle hskip)
    next => exact ⟨s, q, rfl, hmem, hq, requester_wf_of_programOk _ hfault hidle hnext⟩

end

/-! ### The invariant -/

theorem fault_of_canMove {q : Requester} (h : q.canMove = true) : q.fault = none := by
  simp only [Requester.canMove, Bool.and_eq_true, Option.isNone_iff_eq_none] at h
  obtain ⟨hfault, _⟩ := h
  exact hfault

/-- A turn of a requester that can move answers: it performs a unit of a well-formed invocation or runs a line of a
well-formed program. -/
theorem answersWf_takeTurn (who c : Nat) {s : State} {q : Requester} (hs : s.wf = true)
    (hq : s.requesters[who]? = some q) (hmove : q.canMove = true) : AnswersWf s.params who (takeTurn who c s) := by
  obtain ⟨_, hmem, hwf⟩ := (state_wf_iff s).1 hs
  have hqwf := hwf q (List.mem_of_getElem? hq)
  have hfault := fault_of_canMove hmove
  cases hflight : q.inFlight with
  | some inv =>
    have hself : q.withInFlight inv = q := by simp [Requester.withInFlight, ← hflight]
    simp only [takeTurn, hq, hflight]
    exact answersWf_performUnit hmem hq c (hself ▸ hqwf)
  | none =>
    rw [requester_wf_eq_programOk _ hfault hflight] at hqwf
    cases hprogram : q.program with
    | nil => simp [Requester.canMove, hflight, hprogram] at hmove
    | cons line rest =>
      rw [takeTurn_of_line c hq hflight hprogram]
      rw [hprogram] at hqwf
      exact answersWf_runLine (s := s.modifyRequester who (·.withProgram rest)) (q := q.withProgram rest) hmem
        (by simp [hq]) hfault hflight c line hqwf

/-- What one requester does keeps a state well-formed when it leaves the memory and that requester so. -/
theorem Moved.wf {who : Nat} {s t : State} {q : Requester} (h : Moved who s t) (hs : s.wf = true)
    (hmem : t.memory.wf s.params = true) (hq : t.requesters[who]? = some q) (hqwf : q.wf s.params = true) :
    t.wf = true := by
  obtain ⟨hcap, _, hwf⟩ := (state_wf_iff s).1 hs
  rw [state_wf_iff, h.params]
  refine ⟨hcap, hmem, fun r hr => ?_⟩
  obtain ⟨k, hk⟩ := List.mem_iff_getElem?.1 hr
  by_cases hkw : k = who
  · subst hkw
    obtain rfl : q = r := Option.some.inj (hq.symm.trans hk)
    exact hqwf
  · exact hwf r (List.mem_of_getElem? (h.other k hkw ▸ hk))

/-- Settles O51: nobody moves, or one requester does, and its turn leaves the memory and that requester well-formed. -/
theorem wellFormedStatesStepToWellFormedStates : Obligations.WellFormedStatesStepToWellFormedStates := by
  intro s hs
  cases hc : s.chosen with
  | none => exact ⟨s, by simp [step, hc], hs⟩
  | some who =>
    obtain ⟨q, hq, hmove⟩ := chosen_canMove s who hc
    have hs' : s.spendTurn.wf = true := hs
    obtain ⟨t, q', ht, hmem, hq', hqwf⟩ := answersWf_takeTurn who s.nextTurn.unit hs' hq hmove
    exact ⟨t, (step_of_chosen hc).trans ht, (moved_takeTurn _ _ _ _ ht).wf hs' hmem hq' hqwf⟩

end Sys2Proof.Machine
end

section
/-! PROOFS. The Register Bank (`20_memory.md`): a word stored twice, the validity of a request, and its units (R43, R47 to R51). -/

namespace Sys2Proof.Machine

/-! ### A word stored twice (R51) -/

@[simp] theorem insertCell_insertCell (a : Nat) (w : Word) (c : List WordCell) :
    insertCell a w (insertCell a w c) = insertCell a w c := by
  induction c with
  | nil => simp [insertCell]
  | cons g t ih =>
    obtain ⟨x, v⟩ := g
    simp only [insertCell]
    split
    next => simp [insertCell]
    next hlt =>
      split
      next => simp [insertCell]
      next hne => simp [insertCell, hlt, hne, ih]

@[simp] theorem eraseCell_eraseCell (a : Nat) (c : List WordCell) : eraseCell a (eraseCell a c) = eraseCell a c := by
  induction c with
  | nil => rfl
  | cons g t ih =>
    obtain ⟨x, v⟩ := g
    by_cases hx : a = x <;> simp [eraseCell, hx] <;> simpa [hx] using ih

@[simp] theorem withCells_withCells (m : Memory) (b : Bank) (c c' : List WordCell) :
    (m.withCells b c).withCells b c' = m.withCells b c' := by
  cases b <;> rfl

@[simp] theorem store_store (p : Params) (m : Memory) (b : Bank) (a : Nat) (w : Word) :
    (m.store p b a w).store p b a w = m.store p b a w := by
  unfold Memory.store
  split <;> simp

/-- Settles O30: in the list of the bank the word is listed, or off the list, already. -/
theorem storingTwiceIsStoringOnce : Obligations.StoringTwiceIsStoringOnce := by
  intro s b a w
  simp [State.writeWord]

/-! ### Valid requests (R43) -/

theorem validRequest_iff (p : Params) (a n : Nat) : validRequest p a n = true ↔ 1 ≤ n ∧ a + n ≤ p.capacity := by
  simp [validRequest]

/-- Settles O31: validity is the bound of R43, and the other case of both primitives is the failure of the requester. -/
theorem invalidRequestsAreRefusedWhole : Obligations.InvalidRequestsAreRefusedWhole := by
  intro who c b a n ws s
  refine ⟨validRequest_iff .., fun h => ?_, fun h => ?_⟩
  · rw [← validRequest_iff] at h
    rw [execMemRead, if_neg h]
    rfl
  · rw [← validRequest_iff] at h
    rw [execMemWrite, if_neg h]
    rfl

/-! ### Every order (R50, R53) -/

/-- A turn that names the requester at `n` of those that can move gives it the turn. -/
theorem chosen_of_runnable {s : State} {who n : Nat} (hn : n < s.runnable.length) (hwho : s.runnable[n] = who)
    (hturn : s.nextTurn.who = n) : s.chosen = some who := by
  simp [State.chosen, hturn, Nat.mod_eq_of_lt hn, hn, hwho]

theorem chosenUnit_of_lt {inv : Invocation} {k : Nat} (hk : k < inv.pending.length) :
    chosenUnit inv k = inv.pending[k] := by
  simp [chosenUnit, unitIndex, Nat.mod_eq_of_lt hk, hk]

/-- Settles O26: the turn, and the choice, that count to the place of the requester, or of the unit, in its list. -/
theorem everyOrderIsPossible : Obligations.EveryOrderIsPossible := by
  constructor
  · intro s who ts k hwho
    obtain ⟨n, hn, hget⟩ := List.getElem_of_mem hwho
    exact ⟨n, chosen_of_runnable (s := { s with turns := ⟨n, k⟩ :: ts }) hn hget rfl⟩
  · intro inv u hu
    obtain ⟨k, hk, hget⟩ := List.getElem_of_mem hu
    exact ⟨k, (chosenUnit_of_lt hk).trans hget⟩

/-! ### The units of a request (R47, R49) -/

/-- An address is in one of the units exactly when the request covers it. -/
theorem exists_mem_unitsOf_iff (p : Params) (b : Bank) (a n x : Nat) :
    (∃ u ∈ unitsOf p b a n, x ∈ u) ↔ x ∈ List.range' a n := by
  rw [← unitsOf_flatten p b a n, List.mem_flatten]

theorem mem_range_of_mem_unit {p : Params} {b : Bank} {a n x : Nat} {u : List Nat} (hu : u ∈ unitsOf p b a n)
    (hx : x ∈ u) : x ∈ List.range' a n :=
  (exists_mem_unitsOf_iff p b a n x).1 ⟨u, hu, hx⟩

theorem range_ne_nil {a n : Nat} (hn : 1 ≤ n) : List.range' a n ≠ [] := by
  simp; omega

/-- Settles O32: the units are the request cut up, and a cut leaves no part empty. -/
theorem unitsPartitionTheRequest : Obligations.UnitsPartitionTheRequest := by
  intro p b a n hn
  refine ⟨unitsOf_flatten p b a n, fun hnil => ?_, fun u hu => ?_⟩
  · have hflat := unitsOf_flatten p b a n
    rw [hnil] at hflat
    exact range_ne_nil hn hflat.symm
  · unfold unitsOf requestAddrs at hu
    split at hu
    next => exact List.mem_singleton.1 hu ▸ range_ne_nil hn
    next =>
      split at hu
      next => exact List.mem_singleton.1 hu ▸ range_ne_nil hn
      next => exact groupByField_nonempty b _ u hu
    next =>
      obtain ⟨x, _, rfl⟩ := List.mem_map.1 hu
      exact List.cons_ne_nil _ _

/-! ### The words of one field (R28 to R31, R47) -/

/-- Two words are in one field exactly when some field holds both. -/
theorem sameField_iff (b : Bank) (x y : Nat) :
    sameField b x y = true ↔ ∃ f : FieldId, f.field.holds b x = true ∧ f.field.holds b y = true := by
  unfold sameField
  simp only [← fieldAt_eq_some_iff]
  cases fieldAt b x <;> simp

theorem sameField_symm {b : Bank} {x y : Nat} (h : sameField b x y = true) : sameField b y x = true := by
  obtain ⟨f, hx, hy⟩ := (sameField_iff b x y).1 h
  exact (sameField_iff b y x).2 ⟨f, hy, hx⟩

theorem sameField_trans {b : Bank} {x y z : Nat} (h : sameField b x y = true) (h' : sameField b y z = true) :
    sameField b x z = true := by
  obtain ⟨f, hx, hy⟩ := (sameField_iff b x y).1 h
  obtain ⟨g, hy', hz⟩ := (sameField_iff b y z).1 h'
  exact (sameField_iff b x z).2 ⟨f, hx, eq_of_holds hy' hy ▸ hz⟩

/-- The words of a field stand in a row. -/
theorem sameField_of_between {b : Bank} {x y z : Nat} (h : sameField b x z = true) (hxy : x ≤ y) (hyz : y ≤ z) :
    sameField b x y = true := by
  obtain ⟨f, hx, hz⟩ := (sameField_iff b x z).1 h
  obtain ⟨hb, hlo, _⟩ := (holds_iff ..).1 hx
  obtain ⟨_, _, hhi⟩ := (holds_iff ..).1 hz
  exact (sameField_iff b x y).2 ⟨f, hx, (holds_iff ..).2 ⟨hb, by omega, by omega⟩⟩

/-- Two addresses belong together under `PAIR`: they are one word, or words of one field. -/
def Together (b : Bank) (x y : Nat) : Prop := x = y ∨ sameField b x y = true

theorem Together.symm {b : Bank} {x y : Nat} (h : Together b x y) : Together b y x :=
  h.imp Eq.symm sameField_symm

theorem Together.trans {b : Bank} {x y z : Nat} (h : Together b x y) (h' : Together b y z) : Together b x z := by
  rcases h with rfl | h
  · exact h'
  · rcases h' with rfl | h'
    · exact .inr h
    · exact .inr (sameField_trans h h')

/-- Where a word and the one after it are in different fields, nothing at or after the second belongs to the first. -/
theorem not_together_of_not_sameField_succ {b : Bank} {a x : Nat} (h : sameField b a (a + 1) ≠ true) (hx : a + 1 ≤ x) :
    ¬ Together b a x := by
  rintro (rfl | hsame)
  · omega
  · exact h (sameField_of_between hsame (Nat.le_succ a) hx)

/-! ### A long request under `PAIR` is cut between fields only (R47) -/

/-- `u` holds, of the addresses of `l`, those that belong together with any one of its own. -/
def IsGroup (b : Bank) (l u : List Nat) : Prop := ∀ x ∈ u, ∀ y ∈ l, (y ∈ u ↔ Together b x y)

/-- An address put in front that belongs to none of a group leaves it a group. -/
theorem IsGroup.cons {b : Bank} {a : Nat} {l u : List Nat} (h : IsGroup b l u) (ha : a ∉ u)
    (hapart : ∀ x ∈ u, ¬ Together b a x) : IsGroup b (a :: l) u := by
  intro x hx y hy
  rcases List.mem_cons.1 hy with rfl | hy
  · exact iff_of_false ha fun htog => hapart x hx htog.symm
  · exact h x hx y hy

/-- An address put in front is a group of its own when nothing behind it belongs to it. -/
theorem isGroup_singleton {b : Bank} {a : Nat} {l : List Nat} (hapart : ∀ x ∈ l, ¬ Together b a x) :
    IsGroup b (a :: l) [a] := by
  intro x hx y hy
  obtain rfl := List.mem_singleton.1 hx
  rcases List.mem_cons.1 hy with rfl | hy
  · exact iff_of_true (List.mem_singleton_self _) (.inl rfl)
  · exact iff_of_false (fun hyx => hapart y hy (.inl (List.mem_singleton.1 hyx).symm)) (hapart y hy)

/-- An address put in front of the group of its field is of that group. -/
theorem IsGroup.cons_cons {b : Bank} {a c : Nat} {l cs : List Nat} (h : IsGroup b l (c :: cs)) (hsub : c :: cs ⊆ l)
    (hac : sameField b a c = true) : IsGroup b (a :: l) (a :: c :: cs) := by
  have hclass : ∀ z ∈ a :: l, (z ∈ a :: c :: cs ↔ Together b a z) := by
    intro z hz
    constructor
    · intro hmem
      rcases List.mem_cons.1 hmem with rfl | hmem
      · exact .inl rfl
      · exact Together.trans (.inr hac) ((h c (List.mem_cons_self ..) z (hsub hmem)).1 hmem)
    · intro htog
      rcases List.mem_cons.1 hz with rfl | hz
      · exact List.mem_cons_self ..
      · exact List.mem_cons_of_mem _
          ((h c (List.mem_cons_self ..) z hz).2 (Together.trans (.inr (sameField_symm hac)) htog))
  intro x hx y hy
  have hax := (hclass x (List.cons_subset_cons a hsub hx)).1 hx
  exact (hclass y hy).trans ⟨hax.symm.trans, hax.trans⟩

/-- The first group of a request begins with its first address. -/
theorem groupByField_head (b : Bank) (a n : Nat) :
    ∃ cs groups, groupByField b (List.range' a (n + 1)) = (a :: cs) :: groups := by
  simp only [List.range'_succ, groupByField]
  split
  · split <;> exact ⟨_, _, rfl⟩
  · exact ⟨_, _, rfl⟩

section
variable {b : Bank} {a : Nat} {l cs : List Nat} {groups : List (List Nat)}
  (hflat : (((a + 1) :: cs) :: groups).flatten = l) (hgroups : ∀ u ∈ ((a + 1) :: cs) :: groups, IsGroup b l u)
  (hge : ∀ x ∈ l, a + 1 ≤ x)
include hflat

theorem subset_of_mem_groups {u : List Nat} (hu : u ∈ ((a + 1) :: cs) :: groups) : u ⊆ l :=
  fun _ hx => hflat ▸ List.mem_flatten_of_mem hu hx

include hge

theorem not_mem_of_mem_groups {u : List Nat} (hu : u ∈ ((a + 1) :: cs) :: groups) : a ∉ u := fun ha => by
  have := hge a (subset_of_mem_groups hflat hu ha)
  omega

include hgroups

/-- The groups when the address in front joins the first of them. -/
theorem isGroup_of_joined (hnodup : l.Nodup) (hsame : sameField b a (a + 1) = true) :
    ∀ u ∈ (a :: (a + 1) :: cs) :: groups, IsGroup b (a :: l) u := by
  obtain ⟨hfirst, hothers⟩ := List.forall_mem_cons.1 hgroups
  refine List.forall_mem_cons.2
    ⟨hfirst.cons_cons (subset_of_mem_groups hflat (List.mem_cons_self ..)) hsame, fun u hu => ?_⟩
  have hu' : u ∈ ((a + 1) :: cs) :: groups := List.mem_cons_of_mem _ hu
  refine (hothers u hu).cons (not_mem_of_mem_groups hflat hge hu') fun x hx htog => ?_
  have hxfirst : x ∈ (a + 1) :: cs :=
    (hfirst _ (List.mem_cons_self ..) x (subset_of_mem_groups hflat hu' hx)).2
      (Together.trans (.inr (sameField_symm hsame)) htog)
  rw [← hflat, List.flatten_cons] at hnodup
  exact List.disjoint_of_nodup_append hnodup hxfirst (List.mem_flatten_of_mem hu hx)

/-- The groups when the address in front is in another field than the first of them. -/
theorem isGroup_of_apart (hdiff : sameField b a (a + 1) ≠ true) :
    ∀ u ∈ [a] :: ((a + 1) :: cs) :: groups, IsGroup b (a :: l) u := by
  have hapart : ∀ x ∈ l, ¬ Together b a x := fun x hx => not_together_of_not_sameField_succ hdiff (hge x hx)
  exact List.forall_mem_cons.2 ⟨isGroup_singleton hapart, fun u hu =>
    (hgroups u hu).cons (not_mem_of_mem_groups hflat hge hu) fun x hx => hapart x (subset_of_mem_groups hflat hu hx)⟩

end

theorem isGroup_of_mem_groupByField (b : Bank) (a n : Nat) :
    ∀ u ∈ groupByField b (List.range' a n), IsGroup b (List.range' a n) u := by
  induction n generalizing a with
  | zero => simp [groupByField]
  | succ n ih =>
    cases n with
    | zero =>
      intro u hu
      obtain rfl : u = [a] := by simpa [groupByField] using hu
      exact isGroup_singleton (l := []) (by simp)
    | succ n =>
      obtain ⟨cs, groups, hgroups⟩ := groupByField_head b (a + 1) n
      have hflat := groupByField_flatten b (List.range' (a + 1) (n + 1))
      have ih := ih (a + 1)
      have hge : ∀ x ∈ List.range' (a + 1) (n + 1), a + 1 ≤ x := fun x hx => by
        obtain ⟨hle, _⟩ := List.mem_range'_1.1 hx
        exact hle
      rw [List.range'_succ, groupByField]
      rw [hgroups] at hflat ih ⊢
      simp only []
      split
      next hsame => exact isGroup_of_joined hflat ih hge List.nodup_range' hsame
      next hdiff => exact isGroup_of_apart hflat ih hge hdiff

/-- In a request of more than two words under `PAIR`, a word shares its unit with exactly the words of its field. -/
theorem isGroup_of_mem_unitsOf {p : Params} {b : Bank} {a n : Nat} {u : List Nat} (hpair : p.atomicity = .pair)
    (hn : 2 < n) (hu : u ∈ unitsOf p b a n) : IsGroup b (List.range' a n) u := by
  unfold unitsOf at hu
  simp only [hpair, if_neg (by omega : ¬ n ≤ 2)] at hu
  exact isGroup_of_mem_groupByField b a n u hu

/-- Settles O33: a request is one unit, or cut between its fields, or cut into its words. -/
theorem unitsAreFieldsUnderPair : Obligations.UnitsAreFieldsUnderPair := by
  intro p b a n _
  refine ⟨fun hfull => unitsOf_eq_one p b a n (.inl hfull),
    fun hpair hn => unitsOf_eq_one p b a n (.inr (.inl ⟨hpair, hn⟩)),
    fun hpair hn x y hx hy => ⟨?_, fun htog => ?_⟩, fun hword u hu => ?_⟩
  · rintro ⟨u, hu, hxu, hyu⟩
    exact (isGroup_of_mem_unitsOf hpair hn hu x hxu y hy).1 hyu
  · obtain ⟨u, hu, hxu⟩ := (exists_mem_unitsOf_iff p b a n x).2 hx
    exact ⟨u, hu, hxu, (isGroup_of_mem_unitsOf hpair hn hu x hxu y hy).2 htog⟩
  · simp only [unitsOf, hword] at hu
    obtain ⟨x, _, rfl⟩ := List.mem_map.1 hu
    exact ⟨x, rfl⟩

end Sys2Proof.Machine
end

section
/-! PROOFS. One unit of an invocation by `step` (R41, R42, R47, R52), and who may change a word (R56, R58). -/

namespace Sys2Proof.Machine

/-! ### What a turn has to do with the bank -/

/-- The turn of `q` performs a unit of `inv`, before which `q` has become `q₀`: `inv` is in flight, or it is the invocation of
the valid request on the next line, which is then off the program. -/
inductive PerformsUnitOf (p : Params) (q : Requester) : Requester → Invocation → Prop where
  | inFlight {inv : Invocation} (hflight : q.inFlight = some inv) : PerformsUnitOf p q q inv
  | memRead {b : Bank} {a n : Nat} {d : Name} {rest : List Line} (hidle : q.inFlight = none)
      (hprogram : q.program = .memRead b a n d :: rest) (hvalid : validRequest p a n = true) :
      PerformsUnitOf p q ((q.withProgram rest).await d)
        { bank := b, pending := unitsOf p b a n, access := .read [] }
  | memWrite {b : Bank} {a : Nat} {os : List WordOperand} {ws : List Word} {rest : List Line}
      (hidle : q.inFlight = none) (hprogram : q.program = .memWrite b a os :: rest)
      (hwords : evalWords q.names os = .ok ws) (hvalid : validRequest p a ws.length = true) :
      PerformsUnitOf p q (q.withProgram rest)
        { bank := b, pending := unitsOf p b a ws.length, access := .write ((requestAddrs a ws.length).zip ws) }

/-- A change of one place of a list matters only at what stands there. -/
theorem modify_congr {α : Type} {l : List α} {i : Nat} {x : α} {f g : α → α} (hx : l[i]? = some x) (hfg : f x = g x) :
    l.modify i f = l.modify i g := by
  apply List.ext_getElem?
  intro k
  by_cases hk : i = k
  · subst hk; simp [hx, hfg]
  · simp [hk]

theorem modifyRequester_congr {s : State} {who : Nat} {q : Requester} {f g : Requester → Requester}
    (hq : s.requesters[who]? = some q) (hfg : f q = g q) : s.modifyRequester who f = s.modifyRequester who g := by
  simp only [State.modifyRequester, modify_congr hq hfg]

/-- The requester that was changed. -/
theorem modified_requester {s : State} {who : Nat} {q : Requester} (f : Requester → Requester)
    (hq : s.requesters[who]? = some q) : (s.modifyRequester who f).requesters[who]? = some (f q) := by
  simp [hq]

theorem modifyRequester_self {s : State} {who : Nat} {q : Requester} (hq : s.requesters[who]? = some q) :
    s.modifyRequester who (fun _ => q) = s := by
  have hid : s.modifyRequester who (fun _ => q) = s.modifyRequester who id := modifyRequester_congr hq rfl
  rw [hid]
  simp [State.modifyRequester]

theorem modifyRequester_modifyRequester (s : State) (who : Nat) (f g : Requester → Requester) :
    (s.modifyRequester who f).modifyRequester who g = s.modifyRequester who (g ∘ f) := by
  simp [State.modifyRequester, List.modify_modify_eq]

/-- A turn that has a unit to perform is that unit. -/
theorem takeTurn_of_performs {s : State} {who : Nat} {q q₀ : Requester} {inv : Invocation} (c : Nat)
    (hq : s.requesters[who]? = some q) (h : PerformsUnitOf s.params q q₀ inv) :
    takeTurn who c s = .next (performUnit who c inv (s.modifyRequester who fun _ => q₀)) := by
  cases h with
  | inFlight hflight =>
    rw [modifyRequester_self hq]
    simp [takeTurn, hq, hflight]
  | @memRead b a n d rest hidle hprogram hvalid =>
    rw [takeTurn_of_line c hq hidle hprogram, runLine, modifyRequester_modifyRequester,
      modifyRequester_congr (g := fun _ => (q.withProgram rest).await d) hq rfl, execMemRead, modifyRequester_params,
      if_pos hvalid]
  | @memWrite b a os ws rest hidle hprogram hwords hvalid =>
    rw [takeTurn_of_line c hq hidle hprogram, modifyRequester_congr (g := fun _ => q.withProgram rest) hq rfl]
    simp only [runLine, hwords]
    rw [execMemWrite, modifyRequester_params, if_pos hvalid]

/-- What a turn without a unit leaves: the memory as it was, and a requester with nothing in flight and no line it had not. -/
def LeavesBank (who : Nat) (q : Requester) (s t : State) : Prop :=
  t.memory = s.memory ∧
    ∃ q', t.requesters[who]? = some q' ∧ q'.inFlight = none ∧ ∀ line ∈ q'.program, line ∈ q.program

theorem leavesBank_modifyRequester {who : Nat} {q q₀ : Requester} {s : State} {f : Requester → Requester}
    (hq : s.requesters[who]? = some q₀) (hidle : (f q₀).inFlight = none)
    (hprogram : ∀ line ∈ (f q₀).program, line ∈ q.program) : LeavesBank who q s (s.modifyRequester who f) :=
  ⟨rfl, f q₀, modified_requester f hq, hidle, hprogram⟩

theorem leavesBank_issue {who : Nat} {q q₀ : Requester} {d : Name} {i : Instr} {s t : State}
    (hq : s.requesters[who]? = some q₀) (hidle : q₀.inFlight = none) (hprogram : ∀ line ∈ q₀.program, line ∈ q.program)
    (h : issue who d i s = .next t) : LeavesBank who q s t := by
  have hq' : (s.atPorts who d).requesters[who]? = some (q₀.await d) := by simp [hq]
  rcases issue_cases who d i s with ⟨v, _, e⟩ | ⟨_, e⟩ <;>
  · rw [e] at h
    injection h with h
    subst h
    exact leavesBank_modifyRequester (s := s.atPorts who d) hq' hidle hprogram

/-- A line that is off the program performs a unit of a valid request, or leaves the bank alone. -/
theorem runLine_cases {who c : Nat} {q : Requester} {line : Line} {rest : List Line} {s t : State}
    (hq : s.requesters[who]? = some q) (hidle : q.inFlight = none) (hprogram : q.program = line :: rest)
    (h : runLine who c q.names rest line (s.modifyRequester who (·.withProgram rest)) = .next t) :
    (∃ q₀ inv, PerformsUnitOf s.params q q₀ inv) ∨ LeavesBank who q s t := by
  have hq' : (s.modifyRequester who (·.withProgram rest)).requesters[who]? = some (q.withProgram rest) :=
    modified_requester _ hq
  have hrest : ∀ l ∈ (q.withProgram rest).program, l ∈ q.program := fun l hl => by
    rw [hprogram]; exact List.mem_cons_of_mem _ hl
  have hissue : ∀ {d i}, issue who d i (s.modifyRequester who (·.withProgram rest)) = .next t → LeavesBank who q s t :=
    fun h => leavesBank_issue (s := s.modifyRequester who (·.withProgram rest)) hq' hidle hrest h
  cases line with
  | command cw d => exact .inr (hissue h)
  | enc k v d =>
    simp only [runLine] at h
    split at h
    · exact .inr (hissue h)
    · cases h
  | dec k len w0 w1 d =>
    simp only [runLine] at h
    split at h
    · exact .inr (hissue h)
    · cases h
    · cases h
  | decSeq k x d =>
    simp only [runLine] at h
    split at h
    · exact .inr (hissue h)
    · cases h
  | memRead b a n d =>
    by_cases hvalid : validRequest s.params a n = true
    · exact .inl ⟨_, _, .memRead hidle hprogram hvalid⟩
    · rw [runLine, execMemRead, modifyRequester_params, modifyRequester_params, if_neg hvalid] at h
      injection h with h
      subst h
      refine .inr (leavesBank_modifyRequester
        (s := (s.modifyRequester who (·.withProgram rest)).modifyRequester who (·.await d))
        (modified_requester _ hq') hidle hrest)
  | memWrite b a os =>
    simp only [runLine] at h
    split at h
    next ws hws =>
      by_cases hvalid : validRequest s.params a ws.length = true
      · exact .inl ⟨_, _, .memWrite hidle hprogram hws hvalid⟩
      · rw [execMemWrite, modifyRequester_params, if_neg hvalid] at h
        injection h with h
        subst h
        exact .inr (leavesBank_modifyRequester (s := s.modifyRequester who (·.withProgram rest)) hq' hidle hrest)
    next => cases h
  | skipIfZero o n =>
    simp only [runLine] at h
    split at h
    · injection h with h
      subst h
      split
      · exact .inr (leavesBank_modifyRequester (s := s.modifyRequester who (·.withProgram rest)) hq' hidle
          fun l hl => hrest l (List.mem_of_mem_drop hl))
      · exact .inr ⟨rfl, _, hq', hidle, hrest⟩
    · cases h

/-- What a turn is to the bank: a unit of the invocation in flight or of the valid request on the next line, or nothing. -/
theorem takeTurn_cases {who c : Nat} {q : Requester} {s t : State} (hq : s.requesters[who]? = some q)
    (h : takeTurn who c s = .next t) :
    (∃ q₀ inv, PerformsUnitOf s.params q q₀ inv ∧ t = performUnit who c inv (s.modifyRequester who fun _ => q₀)) ∨
      LeavesBank who q s t := by
  have hunit : (∃ q₀ inv, PerformsUnitOf s.params q q₀ inv) →
      ∃ q₀ inv, PerformsUnitOf s.params q q₀ inv ∧ t = performUnit who c inv (s.modifyRequester who fun _ => q₀) := by
    rintro ⟨q₀, inv, hperf⟩
    rw [takeTurn_of_performs c hq hperf] at h
    injection h with h
    exact ⟨q₀, inv, hperf, h.symm⟩
  cases hflight : q.inFlight with
  | some inv => exact .inl (hunit ⟨q, inv, .inFlight hflight⟩)
  | none =>
    cases hprogram : q.program with
    | nil =>
      simp only [takeTurn, hq, hflight, hprogram] at h
      injection h with h
      subst h
      exact .inr ⟨rfl, q, hq, hflight, fun _ hl => hl⟩
    | cons line rest =>
      rw [takeTurn_of_line c hq hflight hprogram] at h
      exact (runLine_cases hq hflight hprogram h).imp_left hunit

/-! ### The requester whose unit is performed -/

section
variable {p : Params} {q q₀ : Requester} {inv : Invocation} (h : PerformsUnitOf p q q₀ inv)
include h

theorem PerformsUnitOf.mem_program {line : Line} (hl : line ∈ q₀.program) : line ∈ q.program := by
  cases h with
  | inFlight => exact hl
  | memRead _ hprogram => exact hprogram ▸ List.mem_cons_of_mem _ hl
  | memWrite _ hprogram => exact hprogram ▸ List.mem_cons_of_mem _ hl

/-- In a well-formed requester the invocation is well-formed. -/
theorem PerformsUnitOf.inv_wf (hq : q.wf p = true) : inv.wf p = true := by
  cases h with
  | inFlight hflight =>
    have hself : q.withInFlight inv = q := by simp [Requester.withInFlight, ← hflight]
    obtain ⟨_, hinv, _⟩ := (withInFlight_wf_iff p q inv).1 (hself ▸ hq)
    exact hinv
  | memRead _ _ hvalid => exact invocation_wf_of_memRead _ hvalid
  | memWrite _ _ _ hvalid => exact invocation_wf_of_memWrite _ hvalid

end

/-- What a unit leaves of its requester: of the invocation, the units left, and a write in flight is the write it was. -/
theorem performUnit_requester {who : Nat} {s : State} {q : Requester} (c : Nat) (inv : Invocation)
    (hq : s.requesters[who]? = some q) :
    ∃ q', (performUnit who c inv s).requesters[who]? = some q' ∧ q'.program = q.program ∧
      ∀ inv', q'.inFlight = some inv' → inv'.bank = inv.bank ∧ inv'.pending = unitsLeft inv c ∧
        ∀ cells, inv'.access = .write cells → inv.access = .write cells := by
  cases haccess : inv.access with
  | read got =>
    obtain ⟨_, hq'⟩ := performUnit_read who c inv got s q haccess hq
    refine ⟨_, hq', ?_⟩
    split
    · simp
    · simp +contextual [eq_comm]
  | write cells =>
    simp only [performUnit, haccess, writeUnit]
    split
    · exact ⟨q.settle, by simp [hq], rfl, by simp⟩
    · refine ⟨q.withInFlight ⟨inv.bank, unitsLeft inv c, .write cells⟩, by simp [hq], rfl, ?_⟩
      simp +contextual [eq_comm]

/-! ### One unit by a step (R41, R42, R47, R52) -/

section
variable {s : State} {who : Nat} {q q₀ : Requester} {inv : Invocation} (hq : s.requesters[who]? = some q)
  (h : PerformsUnitOf s.params q q₀ inv)
include hq h

theorem step_of_performs (hc : s.chosen = some who) :
    step s = .next (performUnit who s.nextTurn.unit inv (s.spendTurn.modifyRequester who fun _ => q₀)) :=
  (step_of_chosen hc).trans (takeTurn_of_performs (s := s.spendTurn) _ hq h)

/-- The turn of one requester leaves the others as they are. -/
theorem step_of_performs_other (k : Nat) (hk : k ≠ who) :
    (performUnit who s.nextTurn.unit inv (s.spendTurn.modifyRequester who fun _ => q₀)).requesters[k]? =
      s.requesters[k]? :=
  (moved_takeTurn _ _ _ _ (takeTurn_of_performs (s := s.spendTurn) _ hq h)).other k hk

end

theorem requester_wf_of_state_wf {s : State} {who : Nat} {q : Requester} (hs : s.wf = true)
    (hq : s.requesters[who]? = some q) : q.wf s.params = true := by
  obtain ⟨_, _, hwf⟩ := (state_wf_iff s).1 hs
  exact hwf q (List.mem_of_getElem? hq)

theorem readWord_of_memory {s t : State} (hmem : t.memory = s.memory) (hparams : t.params = s.params) (b : Bank) (a : Nat) :
    t.readWord b a = s.readWord b a := by
  simp only [State.readWord, hmem, hparams]

/-- Settles O55: the step performs the unit, which gathers its words and keeps those gathered before. -/
theorem readUnitsTakeTheWordsAsTheyStand : Obligations.ReadUnitsTakeTheWordsAsTheyStand := by
  intro s who q q₀ inv got hs hc hq haccess hcase
  have hperf : PerformsUnitOf s.params q q₀ inv := by
    rcases hcase with ⟨hflight, rfl⟩ | ⟨b, a, n, d, rest, hidle, hprogram, hn, hcap, rfl, rfl⟩
    · exact .inFlight hflight
    · exact .memRead hidle hprogram ((validRequest_iff ..).2 ⟨hn, hcap⟩)
  obtain ⟨hunits, hrising, _⟩ :=
    (invocation_wf_read_iff _ haccess).1 (hperf.inv_wf (requester_wf_of_state_wf hs hq))
  obtain ⟨hmem, hq'⟩ := performUnit_read who s.nextTurn.unit inv got (s.spendTurn.modifyRequester who fun _ => q₀) q₀
    haccess (modified_requester _ hq)
  exact ⟨(chosenUnit_cons_unitsLeft inv _ hunits.ne_nil).symm, _,
    (s.spendTurn.modifyRequester who fun _ => q₀).gather inv.bank (chosenUnit inv s.nextTurn.unit) got,
    step_of_performs hq hperf hc,
    gather_rising _ _ _ _ hrising, lookupCell_gather _ _ _ _, hmem,
    readWord_of_memory hmem (moved_performUnit ..).params, step_of_performs_other hq hperf, hq'⟩

/-- Settles O56: the step performs the unit, which stores the words the write lists at its addresses. -/
theorem writeUnitsStoreTheirWordsAndNoOther : Obligations.WriteUnitsStoreTheirWordsAndNoOther := by
  intro s who q q₀ inv cells hs hc hq haccess hcase
  have hperf : PerformsUnitOf s.params q q₀ inv := by
    rcases hcase with ⟨hflight, rfl⟩ | ⟨b, a, os, ws, rest, hidle, hprogram, hwords, hn, hcap, rfl, rfl⟩
    · exact .inFlight hflight
    · exact .memWrite hidle hprogram hwords ((validRequest_iff ..).2 ⟨hn, hcap⟩)
  obtain ⟨hunits, hrising, _, hlisted⟩ :=
    (invocation_wf_write_iff _ haccess).1 (hperf.inv_wf (requester_wf_of_state_wf hs hq))
  obtain ⟨hread, hq'⟩ := performUnit_write who s.nextTurn.unit inv cells
    (s.spendTurn.modifyRequester who fun _ => q₀) q₀ haccess hrising (modified_requester _ hq)
  refine ⟨(chosenUnit_cons_unitsLeft inv _ hunits.ne_nil).symm, _, step_of_performs hq hperf hc, fun x hx => ?_,
    fun b x hout => ?_, step_of_performs_other hq hperf, ?_⟩
  · obtain ⟨w, hw⟩ := Option.isSome_iff_exists.1 (hlisted x (mem_pending_of_mem_chosenUnit _ hunits hx))
    exact ⟨w, hw, by simp [hread, hx, hw]⟩
  · rw [hread, if_neg (by tauto)]
    rfl
  · rw [hq']
    split <;> simp [Requester.settle, Requester.withInFlight, haccess]

/-! ### `WriterDiscipline` (R58) -/

/-- What holds of every requester holds of every requester after something one of them did, if it holds of that one. -/
theorem Moved.forall_requesters {who : Nat} {s t : State} {P : Requester → Prop} (h : Moved who s t)
    (hs : ∀ q ∈ s.requesters, P q) (hwho : ∀ q, t.requesters[who]? = some q → P q) : ∀ q ∈ t.requesters, P q := by
  intro q hq
  obtain ⟨k, hk⟩ := List.mem_iff_getElem?.1 hq
  by_cases hkw : k = who
  · exact hwho q (hkw ▸ hk)
  · exact hs q (List.mem_of_getElem? (h.other k hkw ▸ hk))

theorem Moved.role {who : Nat} {s t : State} {q q' : Requester} (h : Moved who s t) (hq : s.requesters[who]? = some q)
    (hq' : t.requesters[who]? = some q') : q'.role = q.role := by
  have := congrArg (·[who]?) h.roles
  simpa [hq, hq'] using this

theorem invocation_disciplined_iff (r : Role) (inv : Invocation) :
    inv.disciplined r = true ↔ ∀ cells, inv.access = .write cells → mayWrite r inv.bank = true := by
  cases haccess : inv.access <;> simp [Invocation.disciplined, haccess]

theorem requester_disciplined_iff (q : Requester) :
    q.disciplined = true ↔
      (∀ line ∈ q.program, line.disciplined q.role = true) ∧ ∀ inv, q.inFlight = some inv → inv.disciplined q.role = true := by
  cases hflight : q.inFlight <;> simp [Requester.disciplined, hflight]

theorem PerformsUnitOf.disciplined {p : Params} {q q₀ : Requester} {inv : Invocation} (h : PerformsUnitOf p q q₀ inv)
    (hq : q.disciplined = true) : inv.disciplined q.role = true := by
  obtain ⟨hprog, hinv⟩ := (requester_disciplined_iff q).1 hq
  cases h with
  | inFlight hflight => exact hinv inv hflight
  | memRead => rfl
  | memWrite _ hprogram => exact hprog _ (hprogram ▸ List.mem_cons_self ..)

/-- A turn of a disciplined requester leaves it disciplined. -/
theorem disciplined_of_takeTurn {who c : Nat} {q q' : Requester} {s t : State} (hq : s.requesters[who]? = some q)
    (h : takeTurn who c s = .next t) (hdisc : q.disciplined = true) (hq' : t.requesters[who]? = some q') :
    q'.disciplined = true := by
  obtain ⟨hprog, _⟩ := (requester_disciplined_iff q).1 hdisc
  rw [requester_disciplined_iff, (moved_takeTurn _ _ _ _ h).role hq hq']
  rcases takeTurn_cases hq h with ⟨q₀, inv, hperf, rfl⟩ | ⟨_, q'', hq'', hidle, hlines⟩
  · obtain ⟨q'', hq'', hprogram, hleft⟩ := performUnit_requester c inv (modified_requester (fun _ => q₀) hq)
    obtain rfl := Option.some.inj (hq''.symm.trans hq')
    refine ⟨fun line hl => hprog line (hperf.mem_program (hprogram ▸ hl)), fun inv' hinv' => ?_⟩
    obtain ⟨hbank, _, hwrite⟩ := hleft inv' hinv'
    rw [invocation_disciplined_iff]
    intro cells hcells
    exact hbank ▸ (invocation_disciplined_iff ..).1 (hperf.disciplined hdisc) cells (hwrite cells hcells)
  · obtain rfl := Option.some.inj (hq''.symm.trans hq')
    exact ⟨fun line hl => hprog line (hlines line hl), by simp [hidle]⟩

theorem readWord_writeCells_of_ne {b b' : Bank} (hb : b' ≠ b) (cells : List WordCell) (s : State) (x : Nat) :
    (s.writeCells b cells).readWord b' x = s.readWord b' x := by
  induction cells generalizing s with
  | nil => rfl
  | cons g t ih =>
    obtain ⟨a, w⟩ := g
    rw [State.writeCells, ih, readWord_writeWord, if_neg (fun h => hb h.1)]

/-- A unit that changes a word is of a write to that bank. -/
theorem write_of_performUnit_readWord_ne {who c : Nat} {inv : Invocation} {s : State} {b : Bank} {a : Nat}
    (h : (performUnit who c inv s).readWord b a ≠ s.readWord b a) :
    ∃ cells, inv.access = .write cells ∧ inv.bank = b := by
  cases haccess : inv.access with
  | read got =>
    refine absurd (readWord_of_memory ?_ (moved_performUnit who c inv s).params b a) h
    simp only [performUnit, haccess, readUnit]
    split <;> rfl
  | write cells =>
    refine ⟨cells, rfl, by_contra fun hb => h ?_⟩
    rw [← readWord_writeCells_of_ne (Ne.symm hb) (cellsOfUnit (chosenUnit inv c) cells) s a]
    exact readWord_of_memory (performUnit_write_memory who c s haccess)
      ((moved_performUnit who c inv s).params.trans (writeCells_params ..).symm) b a

/-- A turn that changes a word is that of a requester that may write its bank, if it is disciplined. -/
theorem mayWrite_of_takeTurn_readWord_ne {who c : Nat} {q : Requester} {s t : State} {b : Bank} {a : Nat}
    (hq : s.requesters[who]? = some q) (h : takeTurn who c s = .next t) (hdisc : q.disciplined = true)
    (hne : t.readWord b a ≠ s.readWord b a) : mayWrite q.role b = true := by
  rcases takeTurn_cases hq h with ⟨q₀, inv, hperf, rfl⟩ | ⟨hmem, _⟩
  · obtain ⟨cells, haccess, rfl⟩ := write_of_performUnit_readWord_ne hne
    exact (invocation_disciplined_iff ..).1 (hperf.disciplined hdisc) cells haccess
  · exact absurd (readWord_of_memory hmem (moved_takeTurn _ _ _ _ h).params b a) hne

theorem state_disciplined_iff (s : State) : s.writerDiscipline = true ↔ ∀ q ∈ s.requesters, q.disciplined = true := by
  simp [State.writerDiscipline]

/-- Settles O39: only a unit of a write changes a word, and a disciplined requester has writes of its own banks only. -/
theorem writerDisciplineDecidesWhoWrites : Obligations.WriterDisciplineDecidesWhoWrites := by
  intro s t h hdisc
  have hall := (state_disciplined_iff s).1 hdisc
  rcases step_cases s t h with ⟨_, rfl⟩ | ⟨who, hc, hturn, hmoved⟩
  · exact ⟨hdisc, fun a hne => absurd rfl hne, fun a hne => absurd rfl hne⟩
  · obtain ⟨q, hq, _⟩ := chosen_canMove s who hc
    have hqdisc := hall q (List.mem_of_getElem? hq)
    have hwrite : ∀ {b a}, t.readWord b a ≠ s.readWord b a → mayWrite q.role b = true :=
      mayWrite_of_takeTurn_readWord_ne (s := s.spendTurn) hq hturn hqdisc
    refine ⟨(state_disciplined_iff t).2 (hmoved.forall_requesters hall fun q' hq' => ?_), fun a hne => ?_, fun a hne => ?_⟩
    · exact disciplined_of_takeTurn (s := s.spendTurn) hq hturn hqdisc hq'
    · exact ⟨who, q, hc, hq, by simpa [mayWrite] using hwrite hne⟩
    · exact ⟨who, q, hc, hq, by simpa [mayWrite] using hwrite hne⟩

end Sys2Proof.Machine
end

section
/-! PROOFS. Whole invocations (R41, R42, R47, R50): a request that is one unit, and one whose units are performed in any order
with no other turn between. -/

namespace Sys2Proof.Machine

/-! ### The last unit and the units before it -/

theorem unitsLeft_length_of_succ {inv : Invocation} {n : Nat} (c : Nat) (h : n + 1 = inv.pending.length) :
    (unitsLeft inv c).length = n := by
  have hne : inv.pending ≠ [] := fun hnil => by simp [hnil] at h
  have := unitsLeft_length inv c hne
  omega

/-- An address is pending before a unit exactly when it is of that unit or is left after it. -/
theorem mem_pending_iff {inv : Invocation} (c : Nat) (hne : inv.pending ≠ []) (x : Nat) :
    x ∈ inv.pending.flatten ↔ x ∈ chosenUnit inv c ∨ x ∈ (unitsLeft inv c).flatten := by
  rw [← (chosenUnit_append_unitsLeft inv c hne).mem_iff, List.mem_append]

/-- Turns of a requester with an invocation in flight begin with a unit of it. -/
theorem repeatTurns_of_inFlight {who : Nat} {s : State} {q : Requester} {inv : Invocation} (c : Nat) (cs : List Nat)
    (hq : s.requesters[who]? = some q) (hflight : q.inFlight = some inv) :
    repeatTurns who (c :: cs) s = repeatTurns who cs (performUnit who c inv s) := by
  have hturn := takeTurn_of_performs c hq (.inFlight hflight)
  rw [modifyRequester_self hq] at hturn
  simp only [repeatTurns, hturn]

/-- Turns of a requester, as many as its invocation has units, begin with a unit of it. -/
theorem repeatTurns_of_performs {who : Nat} {s : State} {q q₀ : Requester} {inv : Invocation} {choices : List Nat}
    (hq : s.requesters[who]? = some q) (hperf : PerformsUnitOf s.params q q₀ inv) (hne : inv.pending ≠ [])
    (hlength : choices.length = inv.pending.length) :
    ∃ c cs, cs.length + 1 = inv.pending.length ∧
      repeatTurns who choices s = repeatTurns who cs (performUnit who c inv (s.modifyRequester who fun _ => q₀)) := by
  cases choices with
  | nil => exact absurd hlength.symm (by simpa using hne)
  | cons c cs => exact ⟨c, cs, hlength, by simp only [repeatTurns, takeTurn_of_performs c hq hperf]⟩

/-! ### Reads (R41) -/

/-- A unit of a read after which others are left. -/
theorem performUnit_read_more {who c : Nat} {inv : Invocation} {got : List WordCell} (s : State)
    (haccess : inv.access = .read got) (hleft : unitsLeft inv c ≠ []) :
    performUnit who c inv s = s.modifyRequester who (·.withInFlight
      { bank := inv.bank, pending := unitsLeft inv c,
        access := .read (s.gather inv.bank (chosenUnit inv c) got) }) := by
  simp [performUnit, haccess, readUnit, hleft]

/-- `got` is what a read of `n` words at `a`, where the bank holds the words `r`, has taken when the units `pending` are left. -/
structure ReadSoFar (r : Nat → Word) (a n : Nat) (pending : List (List Nat)) (got : List WordCell) : Prop where
  rising : risingCells got = true
  nodup : pending.flatten.Nodup
  covered : ∀ x ∈ pending.flatten, x ∈ List.range' a n
  taken : ∀ x, lookupCell x got = if x ∈ List.range' a n ∧ x ∉ pending.flatten then some (r x) else none

theorem readSoFar_issued (r : Nat → Word) (p : Params) (b : Bank) (a n : Nat) :
    ReadSoFar r a n (unitsOf p b a n) [] := by
  have hflat := unitsOf_flatten p b a n
  exact ⟨rfl, hflat ▸ List.nodup_range', fun _ hx => hflat ▸ hx, fun x => by simp [hflat, lookupCell]⟩

theorem ReadSoFar.unit {s : State} {inv : Invocation} {a n : Nat} {got : List WordCell}
    (h : ReadSoFar (s.readWord inv.bank) a n inv.pending got) (c : Nat) (hne : inv.pending ≠ []) :
    ReadSoFar (s.readWord inv.bank) a n (unitsLeft inv c) (s.gather inv.bank (chosenUnit inv c) got) := by
  have hmem := mem_pending_iff c hne
  have hnodup := (chosenUnit_append_unitsLeft inv c hne).nodup_iff.2 h.nodup
  obtain ⟨_, hleft, _⟩ := List.nodup_append.1 hnodup
  refine ⟨gather_rising _ _ _ _ h.rising, hleft,
    fun x hx => h.covered x ((hmem x).2 (.inr hx)), fun x => ?_⟩
  rw [lookupCell_gather]
  by_cases hx : x ∈ chosenUnit inv c
  · rw [if_pos hx, if_pos ⟨h.covered x ((hmem x).2 (.inl hx)), List.disjoint_of_nodup_append hnodup hx⟩]
  · simp [hx, h.taken, hmem x]

/-- A read with no unit left has taken the words of the request in address order. -/
theorem ReadSoFar.words {r : Nat → Word} {a n : Nat} {got : List WordCell} (h : ReadSoFar r a n [] got) :
    got.map Prod.snd = (List.range' a n).map r := by
  have : got = (List.range' a n).map fun x => (x, r x) :=
    rising_ext _ _ h.rising (rising_range a n r) fun x => by simp [h.taken, lookupCell_map]
  rw [this, List.map_map]
  rfl

/-- The requester as a read leaves it: its words are returned and bound, and nothing is in flight. -/
def Requester.givenWords (ws : List Word) (q : Requester) : Requester := (q.receive (.words ws) (.words ws)).settle

/-- The last unit of a read gives the requester all its words. -/
theorem performUnit_read_last {who c : Nat} {inv : Invocation} {got : List WordCell} {s : State} {a n : Nat}
    (haccess : inv.access = .read got) (hread : ReadSoFar (s.readWord inv.bank) a n inv.pending got)
    (hlength : inv.pending.length = 1) :
    performUnit who c inv s = s.modifyRequester who (·.givenWords ((List.range' a n).map (s.readWord inv.bank))) := by
  have hleft : unitsLeft inv c = [] := List.length_eq_zero_iff.1 (unitsLeft_length_of_succ c hlength.symm)
  have hwords := hread.unit c (List.ne_nil_of_length_eq_add_one hlength)
  rw [hleft] at hwords
  simp only [performUnit, haccess, readUnit, hleft, List.isEmpty_nil, if_true, hwords.words]
  rfl

/-- The units of a read, one after the other from the one begun, give the requester all its words. -/
theorem repeatTurns_read {who a n : Nat} (cs : List Nat) {c : Nat} {inv : Invocation} {got : List WordCell} {s : State}
    {q : Requester} (hq : s.requesters[who]? = some q) (haccess : inv.access = .read got)
    (hread : ReadSoFar (s.readWord inv.bank) a n inv.pending got) (hlength : cs.length + 1 = inv.pending.length) :
    repeatTurns who cs (performUnit who c inv s) =
      .next (s.modifyRequester who (·.givenWords ((List.range' a n).map (s.readWord inv.bank)))) := by
  induction cs generalizing c inv got s q with
  | nil => rw [repeatTurns, performUnit_read_last haccess hread hlength.symm]
  | cons c' cs ih =>
    have hleft := unitsLeft_length_of_succ c hlength
    rw [performUnit_read_more s haccess (List.ne_nil_of_length_eq_add_one hleft),
      repeatTurns_of_inFlight c' cs (modified_requester _ hq) rfl,
      ih (inv := ⟨inv.bank, unitsLeft inv c, .read _⟩) (modified_requester _ hq) rfl
        (hread.unit c (List.ne_nil_of_length_eq_add_one hlength.symm)) hleft.symm,
      modifyRequester_modifyRequester]
    rfl

/-- Settles O34: the one unit is the last one, and it has the whole request. -/
theorem oneUnitReadReturnsTheWords : Obligations.OneUnitReadReturnsTheWords := by
  intro who c b a n s hn hcap hone
  rw [execMemRead, if_pos ((validRequest_iff ..).2 ⟨hn, hcap⟩),
    performUnit_read_last rfl (readSoFar_issued _ s.params b a n) (by rw [unitsOf_eq_one _ _ _ _ hone]; rfl)]
  rfl

/-- Settles O36: the first turn issues the read and performs a unit, the others perform the units left. -/
theorem readsReturnTheWordsInEveryUnitOrder : Obligations.ReadsReturnTheWordsInEveryUnitOrder := by
  intro s who q b a n d rest choices hq hidle hprogram hn hcap hlength
  have hvalid := (validRequest_iff s.params a n).2 ⟨hn, hcap⟩
  obtain ⟨c, cs, hcs, hturns⟩ := repeatTurns_of_performs hq (.memRead hidle hprogram hvalid)
    (unitsOf_wf b hvalid).ne_nil hlength
  rw [hturns, repeatTurns_read cs (modified_requester _ hq) rfl (readSoFar_issued _ _ b a n) hcs,
    modifyRequester_modifyRequester]
  exact congrArg Host.Outcome.next (modifyRequester_congr hq rfl)

/-! ### Writes (R42) -/

/-- `t` is `s` after the words of `cells` at the addresses `addrs` of bank `b` have been stored for requester `who`, which has
nothing left in flight. -/
structure StoredFor (who : Nat) (b : Bank) (addrs : List Nat) (cells : List WordCell) (s t : State) : Prop where
  readWord : ∀ b' x, t.readWord b' x =
    if b' = b ∧ x ∈ addrs then (lookupCell x cells).getD (s.readWord b' x) else s.readWord b' x
  params : t.params = s.params
  requesters : t.requesters = s.requesters.modify who (·.settle)

/-- A unit of a write after which others are left. -/
theorem performUnit_write_more {who c : Nat} {inv : Invocation} {cells : List WordCell} (s : State)
    (haccess : inv.access = .write cells) (hleft : unitsLeft inv c ≠ []) :
    performUnit who c inv s =
      (s.writeCells inv.bank (cellsOfUnit (chosenUnit inv c) cells)).modifyRequester who (·.withInFlight
        { bank := inv.bank, pending := unitsLeft inv c, access := .write cells }) := by
  simp [performUnit, haccess, writeUnit, hleft]

/-- The last unit of a write leaves all its words stored. -/
theorem performUnit_write_last {who c : Nat} {inv : Invocation} {cells : List WordCell} (s : State)
    (haccess : inv.access = .write cells) (hrising : risingCells cells = true) (hlength : inv.pending.length = 1) :
    StoredFor who inv.bank inv.pending.flatten cells s (performUnit who c inv s) := by
  have hleft : unitsLeft inv c = [] := List.length_eq_zero_iff.1 (unitsLeft_length_of_succ c hlength.symm)
  have hmem := mem_pending_iff c (List.ne_nil_of_length_eq_add_one hlength)
  simp only [hleft, List.flatten_nil, List.not_mem_nil, or_false] at hmem
  simp only [performUnit, haccess, writeUnit, hleft, List.isEmpty_nil, if_true]
  refine ⟨fun b' x => ?_, by simp, by simp⟩
  simp only [modifyRequester_readWord, readWord_writeUnitCells _ _ _ _ _ _ hrising, hmem]

/-- The units of a write, one after the other from the one begun, leave all its words stored. -/
theorem repeatTurns_write {who : Nat} (cs : List Nat) {c : Nat} {inv : Invocation} {cells : List WordCell} {s : State}
    {q : Requester} (hq : s.requesters[who]? = some q) (haccess : inv.access = .write cells)
    (hrising : risingCells cells = true) (hlength : cs.length + 1 = inv.pending.length) :
    ∃ t, repeatTurns who cs (performUnit who c inv s) = .next t ∧
      StoredFor who inv.bank inv.pending.flatten cells s t := by
  induction cs generalizing c inv s q with
  | nil => exact ⟨_, rfl, performUnit_write_last s haccess hrising hlength.symm⟩
  | cons c' cs ih =>
    have hleft := unitsLeft_length_of_succ c hlength
    have hq' : (s.writeCells inv.bank (cellsOfUnit (chosenUnit inv c) cells)).requesters[who]? = some q := by
      simpa using hq
    rw [performUnit_write_more s haccess (List.ne_nil_of_length_eq_add_one hleft),
      repeatTurns_of_inFlight c' cs (modified_requester _ hq') rfl]
    obtain ⟨t, ht, hread, hparams, hrequesters⟩ := ih (c := c')
      (inv := ⟨inv.bank, unitsLeft inv c, .write cells⟩) (modified_requester _ hq') rfl hleft.symm
    refine ⟨t, ht, fun b' x => ?_, hparams.trans (by simp), hrequesters.trans ?_⟩
    · have hmem := mem_pending_iff c (List.ne_nil_of_length_eq_add_one hlength.symm) x
      simp only [hread, modifyRequester_readWord, readWord_writeUnitCells _ _ _ _ _ _ hrising, hmem]
      cases lookupCell x cells <;> by_cases hb : b' = inv.bank <;> by_cases hu : x ∈ chosenUnit inv c <;> simp [hb, hu]
    · rw [modifyRequester_requesters, writeCells_requesters, List.modify_modify_eq]
      rfl

/-- Stored for a request, the words are those of the request and no word outside it has changed. -/
theorem StoredFor.words {who : Nat} {b : Bank} {a : Nat} {ws : List Word} {s t : State}
    (h : StoredFor who b (List.range' a ws.length) ((requestAddrs a ws.length).zip ws) s t) :
    (∀ k w, ws[k]? = some w → t.readWord b (a + k) = w) ∧
      ∀ b' x, b' ≠ b ∨ x < a ∨ a + ws.length ≤ x → t.readWord b' x = s.readWord b' x := by
  constructor
  · intro k w hw
    obtain ⟨hk, rfl⟩ := List.getElem?_eq_some_iff.1 hw
    simp [h.readWord, requestAddrs, lookupCell_zip, hk]
  · intro b' x hout
    rw [h.readWord, if_neg]
    rintro ⟨hb, hx⟩
    rw [List.mem_range'_1] at hx
    rcases hout with hne | hlt | hge
    · exact hne hb
    · omega
    · omega

/-- Settles O35: the one unit is the last one, and it has the whole request. -/
theorem oneUnitWriteStoresTheWords : Obligations.OneUnitWriteStoresTheWords := by
  intro who c b a ws s hn hcap hone
  rw [execMemWrite, if_pos ((validRequest_iff ..).2 ⟨hn, hcap⟩)]
  have hstored := performUnit_write_last (who := who) (c := c) (inv := ⟨b, unitsOf s.params b a ws.length, _⟩) s rfl
    (rising_zip a ws) (by rw [unitsOf_eq_one _ _ _ _ hone]; rfl)
  rw [unitsOf_flatten] at hstored
  obtain ⟨hwords, hother⟩ := hstored.words
  exact ⟨hwords, hother, hstored.requesters, hstored.params⟩

/-- Settles O37: the first turn issues the write and performs a unit, the others perform the units left. -/
theorem writesStoreTheWordsInEveryUnitOrder : Obligations.WritesStoreTheWordsInEveryUnitOrder := by
  intro s who q b a os ws rest choices hq hidle hprogram hws hn hcap hlength
  have hvalid := (validRequest_iff s.params a ws.length).2 ⟨hn, hcap⟩
  obtain ⟨c, cs, hcs, hturns⟩ := repeatTurns_of_performs hq (.memWrite hidle hprogram hws hvalid)
    (unitsOf_wf b hvalid).ne_nil hlength
  obtain ⟨t, ht, hstored⟩ := repeatTurns_write cs (c := c)
    (modified_requester (fun _ => q.withProgram rest) hq) rfl (rising_zip a ws) hcs
  rw [unitsOf_flatten] at hstored
  obtain ⟨hwords, hother⟩ := hstored.words
  refine ⟨t, hturns.trans ht, hwords, hother, hstored.params, hstored.requesters.trans ?_⟩
  rw [modifyRequester_requesters, List.modify_modify_eq]
  exact modify_congr hq rfl

end Sys2Proof.Machine
end

section
/-! PROOFS. The pair that is never torn under a conforming atomicity (R47, R48, R115). -/

namespace Sys2Proof.Machine

/-! ### What is indivisible (R47) -/

/-- Under a conforming atomicity a unit with one word has another requested word in it when the request is indivisible there:
under `FULL`, as a request of at most two words, or because the two belong to one field. -/
theorem mem_unit_of_indivisible {p : Params} {b : Bank} {start n x y : Nat} {u : List Nat}
    (hconf : p.atomicity.conforming = true) (hind : p.atomicity = .full ∨ n ≤ 2 ∨ sameField b x y = true)
    (hu : u ∈ unitsOf p b start n) (hx : x ∈ u) (hy : y ∈ List.range' start n) : y ∈ u := by
  have hone : unitsOf p b start n = [List.range' start n] → y ∈ u := fun h => by
    obtain rfl := List.mem_singleton.1 (h ▸ hu)
    exact hy
  cases hat : p.atomicity with
  | full => exact hone (unitsOf_eq_one p b start n (.inl hat))
  | word => simp [hat, Atomicity.conforming] at hconf
  | pair =>
    by_cases hn : n ≤ 2
    · exact hone (unitsOf_eq_one p b start n (.inr (.inl ⟨hat, hn⟩)))
    · have hfield : sameField b x y = true := by simpa [hat, hn] using hind
      exact (isGroup_of_mem_unitsOf hat (by omega) hu x hx y hy).2 (.inr hfield)

/-! ### Writes that keep the pair -/

theorem invocation_keepsPair_iff (b : Bank) (a : Nat) (V : Val32 → Prop) (inv : Invocation) :
    inv.keepsPair b a V ↔
      ∀ cells, inv.access = .write cells → inv.bank = b → ∀ u ∈ inv.pending, unitKeepsPair a V cells u := by
  cases haccess : inv.access <;> simp [Invocation.keepsPair, haccess]

/-- An indivisible request that covers the pair with a value of `V` keeps the pair in each of its units. -/
theorem unitKeepsPair_of_covers {p : Params} {b : Bank} {start a k : Nat} {ws : List Word} {hi lo : Word}
    {V : Val32 → Prop} {u : List Nat} (hconf : p.atomicity.conforming = true)
    (hind : p.atomicity = .full ∨ ws.length ≤ 2 ∨ sameField b a (a + 1) = true) (hk : start + k = a)
    (hhi : ws[k]? = some hi) (hlo : ws[k + 1]? = some lo) (hV : V (joinWords hi lo))
    (hu : u ∈ unitsOf p b start ws.length) :
    unitKeepsPair a V ((List.range' start ws.length).zip ws) u := by
  obtain ⟨hlt, _⟩ := List.getElem?_eq_some_iff.1 hlo
  have ha : a ∈ List.range' start ws.length := List.mem_range'_1.2 (by omega)
  have ha' : a + 1 ∈ List.range' start ws.length := List.mem_range'_1.2 (by omega)
  have hiff : a ∈ u ↔ a + 1 ∈ u :=
    ⟨fun h => mem_unit_of_indivisible hconf hind hu h ha',
      fun h => mem_unit_of_indivisible hconf (hind.imp_right (Or.imp_right sameField_symm)) hu h ha⟩
  by_cases hau : a ∈ u
  · refine .inr ⟨hau, hiff.1 hau, hi, lo, ?_, ?_, hV⟩
    · rw [lookupCell_zip, if_pos (by omega), show a - start = k by omega, hhi]
    · rw [lookupCell_zip, if_pos (by omega), show a + 1 - start = k + 1 by omega, hlo]
  · exact .inl ⟨hau, fun h => hau (hiff.2 h)⟩

/-- A request that covers neither word of the pair keeps it. -/
theorem unitKeepsPair_of_not_covers {p : Params} {b : Bank} {start n a : Nat} {V : Val32 → Prop} {cells : List WordCell}
    {u : List Nat} (hout : ¬ ∃ k, k < n ∧ (start + k = a ∨ start + k = a + 1)) (hu : u ∈ unitsOf p b start n) :
    unitKeepsPair a V cells u := by
  have hnot : ∀ x, x = a ∨ x = a + 1 → x ∉ u := fun x hx hxu => by
    obtain ⟨hlo, hhi⟩ := List.mem_range'_1.1 (mem_range_of_mem_unit hu hxu)
    exact hout ⟨x - start, by omega, by omega⟩
  exact .inl ⟨hnot a (.inl rfl), hnot (a + 1) (.inr rfl)⟩

/-- The invocation whose unit the next turn performs keeps the pair. -/
theorem PerformsUnitOf.keepsPair {s : State} {who : Nat} {q q₀ : Requester} {inv : Invocation} {b : Bank} {a : Nat}
    {V : Val32 → Prop} (h : PerformsUnitOf s.params q q₀ inv) (hconf : s.params.atomicity.conforming = true)
    (hkept : ∀ inv, q.inFlight = some inv → inv.keepsPair b a V) (hissues : s.issuesPairsWhole b a V)
    (hc : s.chosen = some who) (hq : s.requesters[who]? = some q) : inv.keepsPair b a V := by
  cases h with
  | inFlight hflight => exact hkept inv hflight
  | memRead => trivial
  | @memWrite b' start os ws rest hidle hprogram hwords hvalid =>
    rintro rfl u hu
    by_cases hcovers : ∃ k, k < ws.length ∧ (start + k = a ∨ start + k = a + 1)
    · obtain ⟨hind, k, hi, lo, hk, hhi, hlo, hV⟩ :=
        hissues who q start os rest ws hc hq hidle hprogram hwords hvalid hcovers
      exact unitKeepsPair_of_covers hconf hind hk hhi hlo hV hu
    · exact unitKeepsPair_of_not_covers hcovers hu

/-! ### The pair after a unit -/

/-- The value the pair at `a` of bank `b` holds. -/
def State.pairAt (s : State) (b : Bank) (a : Nat) : Val32 := joinWords (s.readWord b a) (s.readWord b (a + 1))

/-- A unit of a well-formed invocation that keeps the pair leaves a value of `V` in it. -/
theorem pairAt_performUnit {s : State} {who c : Nat} {q : Requester} {inv : Invocation} {b : Bank} {a : Nat}
    {V : Val32 → Prop} (hq : s.requesters[who]? = some q) (hinv : inv.wf s.params = true) (hkeeps : inv.keepsPair b a V)
    (hV : V (s.pairAt b a)) : V ((performUnit who c inv s).pairAt b a) := by
  cases haccess : inv.access with
  | read got =>
    obtain ⟨hmem, _⟩ := performUnit_read who c inv got s q haccess hq
    simpa only [State.pairAt, readWord_of_memory hmem (moved_performUnit ..).params] using hV
  | write cells =>
    obtain ⟨hunits, hrising, _⟩ := (invocation_wf_write_iff _ haccess).1 hinv
    obtain ⟨hread, _⟩ := performUnit_write who c inv cells s q haccess hrising hq
    simp only [State.pairAt, hread] at hV ⊢
    by_cases hbank : b = inv.bank
    · rcases (invocation_keepsPair_iff ..).1 hkeeps cells haccess hbank.symm _ (chosenUnit_mem inv c hunits.ne_nil) with
        ⟨ha, ha'⟩ | ⟨ha, ha', hi, lo, hhi, hlo, hnew⟩
      · simpa [ha, ha'] using hV
      · simpa [ha, ha', hbank, hhi, hlo] using hnew
    · simpa [hbank] using hV

/-- What is left of an invocation that keeps the pair keeps it. -/
theorem keepsPair_of_unitsLeft {c : Nat} {inv inv' : Invocation} {b : Bank} {a : Nat} {V : Val32 → Prop}
    (hkeeps : inv.keepsPair b a V) (hbank : inv'.bank = inv.bank) (hpending : inv'.pending = unitsLeft inv c)
    (hwrite : ∀ cells, inv'.access = .write cells → inv.access = .write cells) : inv'.keepsPair b a V := by
  rw [invocation_keepsPair_iff] at hkeeps ⊢
  intro cells hcells hb u hu
  exact hkeeps cells (hwrite cells hcells) (hbank ▸ hb) u (List.mem_of_mem_eraseIdx (hpending ▸ hu))

/-- Settles O40: the unit a turn performs, of a write in flight or of the one issued, leaves the pair alone or covers it whole. -/
theorem pairsAreNeverTornUnderConformingAtomicity : Obligations.PairsAreNeverTornUnderConformingAtomicity := by
  intro s t b a V hs hconf hkept hissues h
  rcases step_cases s t h with ⟨_, rfl⟩ | ⟨who, hc, hturn, hmoved⟩
  · exact hkept
  obtain ⟨hV, hflight⟩ := hkept
  obtain ⟨q, hq, _⟩ := chosen_canMove s who hc
  have hothers := hmoved.forall_requesters (P := fun q => ∀ inv, q.inFlight = some inv → inv.keepsPair b a V) hflight
  rcases takeTurn_cases (s := s.spendTurn) hq hturn with ⟨q₀, inv, hperf, rfl⟩ | ⟨hmem, q', hq', hidle, _⟩
  · have hkeeps := hperf.keepsPair (s := s) hconf (hflight q (List.mem_of_getElem? hq)) hissues hc hq
    have hq₀ := modified_requester (s := s.spendTurn) (fun _ => q₀) hq
    refine ⟨pairAt_performUnit hq₀ (hperf.inv_wf (requester_wf_of_state_wf hs hq)) hkeeps hV,
      hothers fun q' hq' inv' hinv' => ?_⟩
    obtain ⟨q'', hq'', _, hleft⟩ := performUnit_requester s.nextTurn.unit inv hq₀
    obtain rfl := Option.some.inj (hq''.symm.trans hq')
    obtain ⟨hbank, hpending, hwrite⟩ := hleft inv' hinv'
    exact keepsPair_of_unitsLeft hkeeps hbank hpending hwrite
  · refine ⟨?_, hothers fun q'' hq'' inv hinv => ?_⟩
    · simpa only [readWord_of_memory hmem hmoved.params, spendTurn_readWord] using hV
    · obtain rfl := Option.some.inj (hq'.symm.trans hq'')
      simp [hidle] at hinv

end Sys2Proof.Machine
end

section
/-! PROOFS. The scene of one writer and one reader of the pair at `IR[1]` (R154): torn under `WORD` (R49), whole under a conforming
atomicity (R48). -/

namespace Sys2Proof.Machine

/-! ### Runs and turns -/

/-- A run goes on where its first step has led. -/
theorem run_succ {s t : State} (k : Nat) (h : step s = .next t) :
    Host.Core.run Sys2Proof.core (k + 1) s = Host.Core.run Sys2Proof.core k t := by
  have hcore : Sys2Proof.core.step s = .next t := h
  simp only [Host.Core.run, hcore]

/-- Where one requester can move, the turn is its. -/
theorem chosen_of_runnable_singleton {s : State} {who : Nat} (h : s.runnable = [who]) : s.chosen = some who := by
  simp [State.chosen, h, Nat.mod_one]

/-- Where two requesters can move, the turn is the one's or the other's. -/
theorem chosen_of_runnable_pair {s : State} {i j : Nat} (h : s.runnable = [i, j]) :
    s.chosen = some i ∨ s.chosen = some j := by
  have hlength : s.runnable.length = 2 := by rw [h]; rfl
  rcases Nat.mod_two_eq_zero_or_one s.nextTurn.who with hturn | hturn <;> simp [State.chosen, h, hturn]

/-! ### The two requesters of the scene -/

/-- The writer of the scene before its turn. -/
def sceneWriter (n : Val32) : Requester :=
  { Requester.idle .tick with program := [.memWrite .ir 1 [.lit (hiWord n), .lit (loWord n)]] }

/-- The reader of the scene before its turn. -/
def sceneReader : Requester := { Requester.idle .serve with program := [.memRead .ir 1 2 0] }

theorem tornScene_requesters (at_ : Atomicity) (o n : Val32) (turns : List Turn) :
    (State.tornScene at_ o n turns).requesters = [sceneWriter n, sceneReader] := rfl

/-- The pair of the scene holds the old value. -/
theorem tornScene_readWord (at_ : Atomicity) (o n : Val32) (turns : List Turn) :
    (State.tornScene at_ o n turns).readWord .ir 1 = hiWord o ∧ (State.tornScene at_ o n turns).readWord .ir 2 = loWord o :=
  ⟨rfl, rfl⟩

/-! ### Under `WORD` (R49) -/

/-- The parameters of the scene under `WORD`. -/
def wordParams (o : Val32) : Params := (State.tornScene .word o 0 []).params

/-- The scene under `WORD` on its way: the memory and the two requesters as they have become. -/
def wordStage (o : Val32) (m : Memory) (writer reader : Requester) (turns : List Turn) (draws : Nat) : State :=
  { params := wordParams o, memory := m, requesters := [writer, reader], issuer := 0, turns := turns, draws := draws }

/-- The writer with the unit of the word at `x` left. -/
def writerLeft (n : Val32) (x : Nat) : Requester :=
  (Requester.idle .tick).withInFlight ⟨.ir, [[x]], .write [(1, hiWord n), (2, loWord n)]⟩

/-- The reader with the word at 1 taken and the unit of the word at 2 left. -/
def readerLeft (w : Word) : Requester := (Requester.idle .serve).withInFlight ⟨.ir, [[2]], .read [(1, w)]⟩

/-- The memory with the hi word of a value in the pair of the scene. -/
def Memory.storeHi (o n : Val32) (m : Memory) : Memory := m.store (wordParams o) .ir 1 (hiWord n)

/-- The memory with the lo word of a value in the pair of the scene. -/
def Memory.storeLo (o n : Val32) (m : Memory) : Memory := m.store (wordParams o) .ir 2 (loWord n)

theorem tornScene_word (o n : Val32) (turns : List Turn) :
    State.tornScene .word o n turns = wordStage o Memory.empty (sceneWriter n) sceneReader turns 0 := rfl

section
variable (o n : Val32) (m : Memory) (writer reader : Requester) (turns : List Turn) (draws k : Nat)

/-- A turn that names 0 is the writer's, while the writer can move. -/
theorem step_writer (c : Nat) (h : writer.canMove = true) :
    step (wordStage o m writer reader (⟨0, c⟩ :: turns) draws) =
      takeTurn 0 c (wordStage o m writer reader turns (draws + 1)) :=
  step_of_chosen (s := wordStage o m writer reader (⟨0, c⟩ :: turns) draws)
    (by simp [State.chosen, State.runnable, State.nextTurn, wordStage, movable, h])

/-- A turn that names 1 is the reader's, while the reader can move. -/
theorem step_reader (c : Nat) (h : reader.canMove = true) :
    step (wordStage o m writer reader (⟨1, c⟩ :: turns) draws) =
      takeTurn 1 c (wordStage o m writer reader turns (draws + 1)) :=
  step_of_chosen (s := wordStage o m writer reader (⟨1, c⟩ :: turns) draws)
    (by cases hw : writer.canMove <;> simp [State.chosen, State.runnable, State.nextTurn, wordStage, movable, h, hw])

theorem run_writer_issues_hi :
    Host.Core.run Sys2Proof.core (k + 1) (wordStage o m (sceneWriter n) reader (⟨0, 0⟩ :: turns) draws) =
      Host.Core.run Sys2Proof.core k (wordStage o (m.storeHi o n) (writerLeft n 2) reader turns (draws + 1)) :=
  run_succ k (step_writer _ _ _ _ _ _ 0 rfl)

theorem run_writer_issues_lo :
    Host.Core.run Sys2Proof.core (k + 1) (wordStage o m (sceneWriter n) reader (⟨0, 1⟩ :: turns) draws) =
      Host.Core.run Sys2Proof.core k (wordStage o (m.storeLo o n) (writerLeft n 1) reader turns (draws + 1)) :=
  run_succ k (step_writer _ _ _ _ _ _ 1 rfl)

theorem run_writer_ends_with_lo :
    Host.Core.run Sys2Proof.core (k + 1) (wordStage o m (writerLeft n 2) reader (⟨0, 0⟩ :: turns) draws) =
      Host.Core.run Sys2Proof.core k (wordStage o (m.storeLo o n) (.idle .tick) reader turns (draws + 1)) :=
  run_succ k (step_writer _ _ _ _ _ _ 0 rfl)

theorem run_writer_ends_with_hi :
    Host.Core.run Sys2Proof.core (k + 1) (wordStage o m (writerLeft n 1) reader (⟨0, 0⟩ :: turns) draws) =
      Host.Core.run Sys2Proof.core k (wordStage o (m.storeHi o n) (.idle .tick) reader turns (draws + 1)) :=
  run_succ k (step_writer _ _ _ _ _ _ 0 rfl)

theorem run_reader_issues :
    Host.Core.run Sys2Proof.core (k + 1) (wordStage o m writer sceneReader (⟨1, 0⟩ :: turns) draws) =
      Host.Core.run Sys2Proof.core k
        (wordStage o m writer (readerLeft (m.load (wordParams o) .ir 1)) turns (draws + 1)) :=
  run_succ k (step_reader _ _ _ _ _ _ 0 rfl)

theorem run_reader_ends (w : Word) :
    Host.Core.run Sys2Proof.core (k + 1) (wordStage o m writer (readerLeft w) (⟨1, 0⟩ :: turns) draws) =
      Host.Core.run Sys2Proof.core k (wordStage o m writer
        ((Requester.idle .serve).givenWords [w, m.load (wordParams o) .ir 2]) turns (draws + 1)) :=
  run_succ k (step_reader _ _ _ _ _ _ 0 rfl)

end

/-- The end of the scene under `WORD`: the pair holds the new value and the reader was given the words `w₀` and `w₁`. -/
theorem torn_of_run {o n : Val32} {w₀ w₁ : Word} {m : Memory} {turns : List Turn}
    (hrun : Host.Core.run Sys2Proof.core 4 (State.tornScene .word o n turns) =
      .next (wordStage o m (.idle .tick) ((Requester.idle .serve).givenWords [w₀, w₁]) [] 4))
    (hhi : m.load (wordParams o) .ir 1 = hiWord n) (hlo : m.load (wordParams o) .ir 2 = loWord n) :
    ∃ turns t, Host.Core.run Sys2Proof.core 4 (State.tornScene .word o n turns) = .next t ∧
      t.requesters.map (·.returned) = [[], [.words [w₀, w₁]]] ∧
      t.readWord .ir 1 = hiWord n ∧ t.readWord .ir 2 = loWord n ∧ t.ended = true ∧
      responseOf (.decI32 2 (joinWords w₀ w₁)) = .ok (w₀ ++ w₁) :=
  ⟨turns, _, hrun, rfl, hhi, hlo, rfl, decodeResponse_two _⟩

theorem load_empty (o : Val32) : Memory.empty.load (wordParams o) .ir 1 = hiWord o ∧
    Memory.empty.load (wordParams o) .ir 2 = loWord o := ⟨rfl, rfl⟩

section
variable (o n : Val32) (m : Memory)

@[simp] theorem load_storeHi_one : (m.storeHi o n).load (wordParams o) .ir 1 = hiWord n := by simp [Memory.storeHi, load_store]

@[simp] theorem load_storeHi_two : (m.storeHi o n).load (wordParams o) .ir 2 = m.load (wordParams o) .ir 2 := by
  simp [Memory.storeHi, load_store]

@[simp] theorem load_storeLo_one : (m.storeLo o n).load (wordParams o) .ir 1 = m.load (wordParams o) .ir 1 := by
  simp [Memory.storeLo, load_store]

@[simp] theorem load_storeLo_two : (m.storeLo o n).load (wordParams o) .ir 2 = loWord n := by simp [Memory.storeLo, load_store]

end

/-- The reader comes between the two units of the writer, the unit of the hi word first. -/
theorem run_hi_read_lo (o n : Val32) :
    Host.Core.run Sys2Proof.core 4 (State.tornScene .word o n [⟨0, 0⟩, ⟨1, 0⟩, ⟨1, 0⟩, ⟨0, 0⟩]) =
      .next (wordStage o ((Memory.empty.storeHi o n).storeLo o n) (.idle .tick)
        ((Requester.idle .serve).givenWords [hiWord n, loWord o]) [] 4) := by
  rw [tornScene_word, run_writer_issues_hi, run_reader_issues,
    run_reader_ends, run_writer_ends_with_lo]
  simp [Host.Core.run, load_empty]

/-- The same, the unit of the lo word first. -/
theorem run_lo_read_hi (o n : Val32) :
    Host.Core.run Sys2Proof.core 4 (State.tornScene .word o n [⟨0, 1⟩, ⟨1, 0⟩, ⟨1, 0⟩, ⟨0, 0⟩]) =
      .next (wordStage o ((Memory.empty.storeLo o n).storeHi o n) (.idle .tick)
        ((Requester.idle .serve).givenWords [hiWord o, loWord n]) [] 4) := by
  rw [tornScene_word, run_writer_issues_lo, run_reader_issues,
    run_reader_ends, run_writer_ends_with_hi]
  simp [Host.Core.run, load_empty]

/-- The reader is done before the writer begins. -/
theorem run_read_hi_lo (o n : Val32) :
    Host.Core.run Sys2Proof.core 4 (State.tornScene .word o n [⟨1, 0⟩, ⟨1, 0⟩, ⟨0, 0⟩, ⟨0, 0⟩]) =
      .next (wordStage o ((Memory.empty.storeHi o n).storeLo o n) (.idle .tick)
        ((Requester.idle .serve).givenWords [hiWord o, loWord o]) [] 4) := by
  rw [tornScene_word, run_reader_issues, run_reader_ends,
    run_writer_issues_hi, run_writer_ends_with_lo]
  simp [Host.Core.run, load_empty]

/-- The reader begins when the writer is done. -/
theorem run_hi_lo_read (o n : Val32) :
    Host.Core.run Sys2Proof.core 4 (State.tornScene .word o n [⟨0, 0⟩, ⟨0, 0⟩, ⟨1, 0⟩, ⟨1, 0⟩]) =
      .next (wordStage o ((Memory.empty.storeHi o n).storeLo o n) (.idle .tick)
        ((Requester.idle .serve).givenWords [hiWord n, loWord n]) [] 4) := by
  rw [tornScene_word, run_writer_issues_hi, run_writer_ends_with_lo,
    run_reader_issues, run_reader_ends]
  simp [Host.Core.run]

/-- Settles O41: the reader's two units fall between the writer's, or before them, or after them. -/
theorem pairsCanBeTornUnderWord : Obligations.PairsCanBeTornUnderWord := by
  intro o n r hr
  simp only [List.mem_cons, List.not_mem_nil, or_false] at hr
  rcases hr with rfl | rfl | rfl | rfl
  · exact torn_of_run (run_hi_read_lo o n) (by simp) (by simp)
  · exact torn_of_run (run_lo_read_hi o n) (by simp) (by simp)
  · exact torn_of_run (run_read_hi_lo o n) (by simp) (by simp)
  · exact torn_of_run (run_hi_lo_read o n) (by simp) (by simp)

/-! ### Under a conforming atomicity (R48) -/

/-- One turn of a requester is the turn. -/
theorem takeTurn_of_repeatTurns {who c : Nat} {s t : State} (h : repeatTurns who [c] s = .next t) :
    takeTurn who c s = .next t := by
  simp only [repeatTurns] at h
  split at h
  next hturn => rw [hturn, h]
  next => cases h
  next => cases h

/-- A pair is one unit under a conforming atomicity. -/
theorem unitsOf_two_length {p : Params} (b : Bank) (a : Nat) (h : p.atomicity.conforming = true) :
    (unitsOf p b a 2).length = 1 := by
  cases hat : p.atomicity with
  | full => rw [unitsOf_eq_one p b a 2 (.inl hat)]; rfl
  | pair => rw [unitsOf_eq_one p b a 2 (.inr (.inl ⟨hat, le_refl 2⟩))]; rfl
  | word => simp [hat, Atomicity.conforming] at h

section
variable {s : State} (hconf : s.params.atomicity.conforming = true) (hcap : s.params.capacity = 100)
include hconf hcap

/-- The reader's turn: it is given both words of the pair as they stand, and nothing else changes. -/
theorem step_sceneReader (hc : s.chosen = some 1) (hq : s.requesters[1]? = some sceneReader) :
    ∃ t, step s = .next t ∧ t.memory = s.memory ∧ t.params = s.params ∧
      t.requesters = s.requesters.modify 1 fun _ =>
        (Requester.idle .serve).givenWords [s.readWord .ir 1, s.readWord .ir 2] := by
  have h := readsReturnTheWordsInEveryUnitOrder s.spendTurn 1 sceneReader .ir 1 2 0 [] [s.nextTurn.unit] hq rfl rfl
    (by decide) (by simp [hcap]) (unitsOf_two_length (p := s.params) _ _ hconf).symm
  exact ⟨_, (step_of_chosen hc).trans (takeTurn_of_repeatTurns h), rfl, rfl, modify_congr hq rfl⟩

/-- The writer's turn: the pair holds the new value, and only the writer changes. -/
theorem step_sceneWriter {n : Val32} (hc : s.chosen = some 0) (hq : s.requesters[0]? = some (sceneWriter n)) :
    ∃ t, step s = .next t ∧ t.readWord .ir 1 = hiWord n ∧ t.readWord .ir 2 = loWord n ∧ t.params = s.params ∧
      t.requesters = s.requesters.modify 0 fun _ => Requester.idle .tick := by
  obtain ⟨t, ht, hwords, _, hparams, hrequesters⟩ :=
    writesStoreTheWordsInEveryUnitOrder s.spendTurn 0 (sceneWriter n) .ir 1 _ [hiWord n, loWord n] [] [s.nextTurn.unit] hq
      rfl rfl rfl (by simp) (by simp [hcap]) (unitsOf_two_length (p := s.params) _ _ hconf).symm
  exact ⟨t, (step_of_chosen hc).trans (takeTurn_of_repeatTurns ht), hwords 0 _ rfl, hwords 1 _ rfl, hparams,
    hrequesters.trans (modify_congr hq rfl)⟩

end

/-- Settles O42: each requester's whole request is one unit, so the reader's turn comes before the writer's or after it. -/
theorem pairsAreWholeInTheSameScene : Obligations.PairsAreWholeInTheSameScene := by
  intro at_ o n turns hconf
  obtain ⟨hhi, hlo⟩ := tornScene_readWord at_ o n turns
  have hrequesters := tornScene_requesters at_ o n turns
  rcases chosen_of_runnable_pair (s := State.tornScene at_ o n turns) rfl with hc | hc
  · obtain ⟨t, ht, hthi, htlo, htparams, htreq⟩ := step_sceneWriter hconf rfl hc (n := n) rfl
    have htreq : t.requesters = [.idle .tick, sceneReader] := htreq
    obtain ⟨u, hu, humem, huparams, hureq⟩ := step_sceneReader (s := t) (htparams ▸ hconf) (htparams ▸ rfl)
      (chosen_of_runnable_singleton (by rw [State.runnable, htreq]; rfl)) (by rw [htreq]; rfl)
    rw [htreq, hthi, htlo] at hureq
    have huread := readWord_of_memory humem huparams .ir
    exact ⟨u, (run_succ 1 ht).trans (run_succ 0 hu), by rw [State.ended, hureq]; rfl, .inr (by rw [hureq]; rfl),
      (huread 1).trans hthi, (huread 2).trans htlo⟩
  · obtain ⟨t, ht, htmem, htparams, htreq⟩ := step_sceneReader hconf rfl hc rfl
    rw [hhi, hlo] at htreq
    have htreq : t.requesters = [sceneWriter n, (Requester.idle .serve).givenWords (wordsOf o)] := htreq
    obtain ⟨u, hu, huhi, hulo, _, hureq⟩ := step_sceneWriter (s := t) (n := n) (htparams ▸ hconf) (htparams ▸ rfl)
      (chosen_of_runnable_singleton (by rw [State.runnable, htreq]; rfl)) (by rw [htreq]; rfl)
    rw [htreq] at hureq
    exact ⟨u, (run_succ 1 ht).trans (run_succ 0 hu), by rw [State.ended, hureq]; rfl, .inl (by rw [hureq]; rfl), huhi, hulo⟩

end Sys2Proof.Machine
end

section
/-! PROOFS. The encoding (`30_encoding.md`): command words and the opcode map, response words, the operands of a decode, and
the lines of a requester's program that present a command. -/

namespace Sys2Proof

/-! ### The fields of a decoded command word (R71, R72) -/

theorem decode_op (cw : CmdWord) : (decode cw).op = cmdOp cw := by
  have hlt := (cmdOp cw).isLt
  apply BitVec.eq_of_toNat_eq
  unfold decode
  split
  next h0 => simp [Instr.op, h0]
  next h1 => simp [Instr.op, h1]
  next h2 => simp [Instr.op, h2]
  next h0 h1 h2 =>
    have h3 : (cmdOp cw).toNat = 3 := by grind
    simp [Instr.op, h3]

theorem decode_len (cw : CmdWord) : (decode cw).len = cmdLen cw := by
  unfold decode
  split <;> rfl

theorem decode_payload (cw : CmdWord) : (decode cw).payload = cmdPayload cw := by
  unfold decode
  split <;> rfl

/-- A command word decodes to an instruction exactly when it carries the instruction's three fields. -/
theorem decode_eq_iff (cw : CmdWord) (i : Instr) :
    decode cw = i ↔ cmdOp cw = i.op ∧ cmdLen cw = i.len ∧ cmdPayload cw = i.payload := by
  constructor
  · rintro rfl
    exact ⟨(decode_op cw).symm, (decode_len cw).symm, (decode_payload cw).symm⟩
  · rintro ⟨hop, hlen, hpayload⟩
    cases i <;> simp [decode, hop, hlen, hpayload, Instr.op, Instr.len, Instr.payload]

/-- Settles O2: the word `op :: len :: payload` carries the three fields of the instruction. -/
theorem decodeOfEncodeIsTheInstruction : Obligations.DecodeOfEncodeIsTheInstruction :=
  fun i => (decode_eq_iff _ i).2 (Laws.Fields.slices i.op i.len i.payload)

/-- The three fields of a command word are all of it (R78). -/
theorem cmdFields_append (cw : CmdWord) : cmdOp cw ++ cmdLen cw ++ cmdPayload cw = cw := by
  have hhead : cmdOp cw ++ cmdLen cw = cw.extractLsb' 32 10 :=
    BitVec.extractLsb'_append_extractLsb'_eq_extractLsb' (start₂ := 40) rfl
  rw [hhead]
  exact BitVec.extractLsb'_append_extractLsb' (w := 10)

/-- Settles O3: the fields of the decoded instruction are those of the word, and they are all of it. -/
theorem encodeOfDecodeIsTheWord : Obligations.EncodeOfDecodeIsTheWord := by
  intro cw
  rw [encode, decode_op, decode_len, decode_payload, cmdFields_append]

/-- Settles O1: the six words are evaluated. -/
theorem vectorWordsDecode : Obligations.VectorWordsDecode := by
  unfold Obligations.VectorWordsDecode
  decide

/-! ### The opcode map (R77) -/

/-- The mask of R77 keeps the operation code and nothing else. -/
theorem and_opcodeMask_eq_iff (cw : CmdWord) (op : BitVec 2) :
    cw &&& 0x30000000000#42 = op ++ 0#40 ↔ cmdOp cw = op := by
  have hcw : cmdOp cw ++ cw.extractLsb' 0 40 = cw := BitVec.extractLsb'_append_extractLsb' (w := 2)
  have hmask : 0x30000000000#42 = BitVec.allOnes 2 ++ 0#40 := by decide
  have hand : cw &&& 0x30000000000#42 = cmdOp cw ++ 0#40 := by
    conv_lhs => rw [← hcw, hmask, BitVec.and_append, BitVec.and_allOnes, BitVec.and_zero]
  rw [hand, BitVec.append_left_inj]

/-- The row of an operation code selects a word exactly when the word decodes to that row's instruction. -/
theorem and_opcodeMask_eq_iff_decode {cw pattern : CmdWord} {op : BitVec 2} {i : Instr}
    (hpattern : pattern = op ++ 0#40) (hop : i.op = op) (hlen : i.len = cmdLen cw) (hpayload : i.payload = cmdPayload cw) :
    cw &&& 0x30000000000#42 = pattern ↔ decode cw = i := by
  rw [hpattern, and_opcodeMask_eq_iff, decode_eq_iff]
  simp [hop, hlen, hpayload]

/-- The rows of R77 are the four operation codes in order, and a row selects the words that have its operation code. -/
theorem opcodeMap_filter_selects (cw : CmdWord) :
    opcodeMap.filter (·.selects cw) =
      ([0, 1, 2, 3].filter fun op : BitVec 2 => cmdOp cw == op).map fun op => ⟨0x30000000000#42, op ++ 0#40⟩ := by
  have hmap : opcodeMap = [0, 1, 2, 3].map fun op : BitVec 2 => ⟨0x30000000000#42, op ++ 0#40⟩ := by decide
  have hsel (op : BitVec 2) : OpcodeRow.selects ⟨0x30000000000#42, op ++ 0#40⟩ cw = (cmdOp cw == op) := by
    rw [Bool.eq_iff_iff, OpcodeRow.selects, beq_iff_eq, beq_iff_eq, and_opcodeMask_eq_iff]
  rw [hmap, List.filter_map]
  simp only [Function.comp_def, hsel]

/-- Of the four operation codes a word has one. -/
theorem opcodes_filter_length : ∀ op : BitVec 2, ([0, 1, 2, 3].filter (op == ·)).length = 1 := by
  decide

/-- Settles O4: the mask shows the operation code, which says what is decoded. -/
theorem everyWordMatchesExactlyItsRow : Obligations.EveryWordMatchesExactlyItsRow := by
  intro cw
  refine ⟨and_opcodeMask_eq_iff_decode (op := 0) (by decide) rfl rfl rfl,
    and_opcodeMask_eq_iff_decode (op := 1) (by decide) rfl rfl rfl,
    and_opcodeMask_eq_iff_decode (op := 2) (by decide) rfl rfl rfl,
    and_opcodeMask_eq_iff_decode (op := 3) (by decide) rfl rfl rfl, ?_⟩
  rw [opcodeMap_filter_selects, List.length_map, opcodes_filter_length]

namespace Machine

/-! ### Response words (R76) -/

theorem carriedBy_ok_iff (p : Val32) (w : RspWord) :
    (Response.ok p).carriedBy w = true ↔ w.extractLsb' 32 1 = 0 ∧ w.extractLsb' 0 32 = p := by
  simp [Response.carriedBy]

theorem carriedBy_formatError_iff (w : RspWord) : Response.formatError.carriedBy w = true ↔ w.extractLsb' 32 1 = 1 := by
  simp [Response.carriedBy]

/-- Settles O5: bit 32 says which of the two responses the word carries. -/
theorem responseWordsCarryOneOutcome : Obligations.ResponseWordsCarryOneOutcome := by
  intro w
  refine ⟨fun herr r => ?_, fun herr r => ?_, fun p => ?_, rfl⟩
  · cases r with
    | ok p => simp [carriedBy_ok_iff, herr, eq_comm (a := p)]
    | formatError => simp [carriedBy_formatError_iff, herr]
  · cases r with
    | ok p => simp [carriedBy_ok_iff, herr]
    | formatError => simp [carriedBy_formatError_iff, herr]
  · rw [Response.word, Option.some_inj, eq_comm]

/-! ### The operands of a decode (R73, R75, R102) -/

theorem len_decCommand (k : ValueKind) (len : BitVec 8) (p : Val32) : (decCommand k len p).len = len := by
  cases k <;> rfl

theorem responseOf_decCommand (k : ValueKind) (len : BitVec 8) (p : Val32) :
    responseOf (decCommand k len p) = decodeResponse len p := by
  cases k <;> rfl

/-- The field `len` holds `min(n, 255)` without loss. -/
theorem toNat_lenField (n : Nat) : (lenField n).toNat = min n 255 := by
  rw [lenField, BitVec.toNat_ofNat, Nat.mod_eq_of_lt (by omega)]

theorem lenField_eq_two_iff (n : Nat) : lenField n = 2#8 ↔ n = 2 := by
  rw [← BitVec.toNat_inj, toNat_lenField, BitVec.toNat_ofNat]
  omega

/-- A sequence that has not two words is answered with FormatError, whatever is left on the port. -/
theorem responseOf_presentSeq_of_ne {k : ValueKind} {ws : List Word} (h : ws.length ≠ 2) (rest : Val32) :
    responseOf (presentSeq k rest ws) = .formatError := by
  rw [presentSeq, responseOf_decCommand, decodeResponse_of_ne _ _ (mt (lenField_eq_two_iff _).1 h)]

/-- Two words are answered with their join, whatever is left on the port. -/
theorem responseOf_presentSeq_pair (k : ValueKind) (rest : Val32) (w0 w1 : Word) :
    responseOf (presentSeq k rest [w0, w1]) = .ok (joinWords w0 w1) := by
  rw [presentSeq, responseOf_decCommand]
  exact decodeResponse_two _

/-- Settles O21: the sequence has two words, or its length field is not 2. -/
theorem presentedSequencesFailUnlessTwoWords : Obligations.PresentedSequencesFailUnlessTwoWords := by
  intro k rest ws
  have hlen : (presentSeq k rest ws).len.toNat = min ws.length 255 := by
    rw [presentSeq, len_decCommand, toNat_lenField]
  by_cases h : ws.length = 2
  · obtain ⟨v0, v1, rfl⟩ := List.length_eq_two.1 h
    refine ⟨hlen, by simp [responseOf_presentSeq_pair], ?_, fun rest' => by simp only [responseOf_presentSeq_pair]⟩
    rintro w0 w1 ⟨⟩
    exact responseOf_presentSeq_pair k rest v0 v1
  · refine ⟨hlen, by simp [responseOf_presentSeq_of_ne h, h], ?_, fun rest' => by
      simp only [responseOf_presentSeq_of_ne h]⟩
    rintro w0 w1 rfl
    exact absurd rfl h

/-! ### The command an assembled line presents (R53, R80) -/

/-- Settles O24: the turn runs the requester's next line, whose operands are bound. -/
theorem stepRunsTheAssembledLine : Obligations.StepRunsTheAssembledLine := by
  intro s who q k d rest hc hq hf
  have hstep {line : Line} (hp : q.program = line :: rest) :
      step s = runLine who s.nextTurn.unit q.names rest line (s.spendTurn.modifyRequester who (·.withProgram rest)) := by
    rw [step_of_chosen hc, takeTurn_of_line _ (spendTurn_requesters s ▸ hq) hf hp]
  refine ⟨fun v p hp hv => ?_, fun len o0 o1 w0 w1 hp h0 h1 => ?_, fun x ws hp hx =>
    ⟨Config.unexamined s.spendTurn.draws, ?_⟩⟩
  · simp only [hstep hp, runLine, hv, issue]
  · simp only [hstep hp, runLine, h0, h1, issue, joinWords]
  · simp only [hstep hp, runLine, hx, issue, modifyRequester_draws]

end Machine

end Sys2Proof
end

section
/-! PROOFS. The operands of `ENCF32` (R14, R80, R95): `exactF32` presents a number as the pattern that denotes it. -/

namespace Sys2Proof.Machine

/-! ### The fields of a packed pattern (R14) -/

theorem f32Sign_packF32 (neg : Bool) (E F : Nat) : f32Sign (packF32 neg E F) = neg := by
  simp only [f32Sign, packF32, BitVec.getLsbD_append]
  simp

theorem f32Exponent_packF32 (neg : Bool) {E : Nat} (F : Nat) (hE : E < 256) : f32Exponent (packF32 neg E F) = E := by
  have hslice : (packF32 neg E F).extractLsb' 23 8 = BitVec.ofNat 8 E := by
    rw [packF32, BitVec.extractLsb'_append_eq_of_le le_rfl]
    exact BitVec.extractLsb'_append_eq_right
  rw [f32Exponent, hslice, BitVec.toNat_ofNat, Nat.mod_eq_of_lt hE]

theorem f32Fraction_packF32 (neg : Bool) (E : Nat) {F : Nat} (hF : F < 2 ^ 23) : f32Fraction (packF32 neg E F) = F := by
  have hslice : (packF32 neg E F).extractLsb' 0 23 = BitVec.ofNat 23 F := BitVec.extractLsb'_append_eq_right
  rw [f32Fraction, hslice, BitVec.toNat_ofNat, Nat.mod_eq_of_lt hF]

theorem f32Exponent_lt (p : Val32) : f32Exponent p < 256 := (p.extractLsb' 23 8).isLt

theorem f32Fraction_lt (p : Val32) : f32Fraction p < 2 ^ 23 := (p.extractLsb' 0 23).isLt

theorem f32Finite_iff (p : Val32) : f32Finite p = true ↔ f32Exponent p ≤ 254 := by
  have hlt := f32Exponent_lt p
  rw [f32Finite, bne_iff_ne]
  omega

/-! ### The number a finite pattern denotes (R14) -/

theorem withSign_zero (neg : Bool) : withSign neg 0 = 0 := by
  simp [withSign]

theorem withSign_inj (neg : Bool) {q r : ℚ} : withSign neg q = withSign neg r ↔ q = r := by
  cases neg <;> simp [withSign]

/-- The number of a zero or of a subnormal. -/
theorem toRat_f32val_of_exponent_zero {p : Val32} (hE : f32Exponent p = 0) :
    (f32val p).toRat = some (withSign (f32Sign p) ((f32Fraction p : ℚ) * 2 ^ (-149 : ℤ))) := by
  unfold f32val
  rw [if_pos hE]
  split
  next hF => simp [F32.toRat, hF, withSign_zero]
  next => rfl

/-- The number of a normal pattern. -/
theorem toRat_f32val_of_normal {p : Val32} (hpos : f32Exponent p ≠ 0) (hfin : f32Finite p = true) :
    (f32val p).toRat =
      some (withSign (f32Sign p) (((2 ^ 23 + f32Fraction p : ℕ) : ℚ) * 2 ^ ((f32Exponent p : ℤ) - 150))) := by
  have hfin := (f32Finite_iff p).1 hfin
  rw [f32val, if_neg hpos, if_neg (by omega)]
  rfl

/-! ### When `exactF32` answers (R80, R95) -/

/-- `scaleExact` answers `m * 2^k` where it is a whole number, and nothing where it is not. -/
theorem scaleExact_eq_some_iff (m : ℕ) (k : ℤ) (f : ℕ) : scaleExact m k = some f ↔ (f : ℚ) = m * 2 ^ k := by
  unfold scaleExact
  split
  next hk =>
    obtain ⟨n, rfl⟩ := Int.eq_ofNat_of_zero_le hk
    rw [Option.some_inj, eq_comm, Int.toNat_natCast, zpow_natCast]
    exact_mod_cast Iff.rfl
  next hk =>
    obtain ⟨n, rfl⟩ := Int.exists_eq_neg_ofNat (by omega : k ≤ 0)
    have hscale : (f : ℚ) = m * 2 ^ (-(n : ℤ)) ↔ f * 2 ^ n = m := by
      rw [zpow_neg, zpow_natCast, ← div_eq_mul_inv, eq_div_iff (by positivity)]
      exact_mod_cast Iff.rfl
    rw [hscale, neg_neg, Int.toNat_natCast]
    have hpow : 0 < 2 ^ n := by positivity
    split
    next hdvd =>
      rw [Option.some_inj, Nat.div_eq_iff_eq_mul_left hpow (Nat.dvd_of_mod_eq_zero hdvd), eq_comm]
    next hdvd =>
      refine ⟨nofun, ?_⟩
      rintro rfl
      exact absurd (Nat.mul_mod_left ..) hdvd

/-- The whole number `f` is `m * 2^k` when `f * 2^j` and `m * 2^e` are one number. -/
theorem eq_mul_zpow_iff (f m : ℚ) {j e k : ℤ} (hk : e = k + j) : f = m * 2 ^ k ↔ f * 2 ^ j = m * 2 ^ e := by
  rw [hk, zpow_add₀ two_ne_zero, ← mul_assoc]
  exact (mul_left_inj' (zpow_ne_zero j two_ne_zero)).symm

theorem exactF32_zero (neg : Bool) (e : ℤ) : exactF32 neg 0 e = some (packF32 neg 0 0) := rfl

/-- From `2^128` on nothing is presented. -/
theorem exactF32_of_large (neg : Bool) {m : ℕ} {e : ℤ} (hm : m ≠ 0) (hlarge : 127 < (m.log2 : ℤ) + e) :
    exactF32 neg m e = none := by
  simp only [exactF32, if_neg hm, if_pos hlarge]

/-- In the range of the normals the significand has 24 bits. -/
theorem exactF32_of_normal (neg : Bool) {m : ℕ} {e : ℤ} (hm : m ≠ 0) (hlo : -126 ≤ (m.log2 : ℤ) + e)
    (hhi : (m.log2 : ℤ) + e ≤ 127) :
    exactF32 neg m e = (scaleExact m (23 - (m.log2 : ℤ))).map fun f =>
      packF32 neg ((m.log2 : ℤ) + e + 127).toNat (f - 2 ^ 23) := by
  simp only [exactF32, if_neg hm, if_neg hhi.not_gt, if_pos hlo]
  cases scaleExact m (23 - (m.log2 : ℤ)) <;> rfl

/-- Below the normals the fraction counts units of `2^-149`. -/
theorem exactF32_of_subnormal (neg : Bool) {m : ℕ} {e : ℤ} (hm : m ≠ 0) (hlow : (m.log2 : ℤ) + e < -126) :
    exactF32 neg m e = (scaleExact m (e + 149)).map fun f => packF32 neg 0 f := by
  simp only [exactF32, if_neg hm, if_neg (show ¬127 < (m.log2 : ℤ) + e by omega), if_neg hlow.not_ge]
  cases scaleExact m (e + 149) <;> rfl

/-! ### The magnitude of a number -/

theorem two_pow_mul_zpow (n : ℕ) {k t : ℤ} (h : t = n + k) : (2 : ℚ) ^ n * 2 ^ k = 2 ^ t := by
  rw [h, zpow_add₀ two_ne_zero, zpow_natCast]

theorem two_zpow_log2_add_le {m : ℕ} (hm : m ≠ 0) (e : ℤ) : (2 : ℚ) ^ ((m.log2 : ℤ) + e) ≤ m * 2 ^ e := by
  have hlog : (2 : ℚ) ^ m.log2 ≤ m := by exact_mod_cast Nat.log2_self_le hm
  rw [← two_pow_mul_zpow m.log2 rfl]
  gcongr

theorem lt_two_zpow_log2_add (m : ℕ) (e : ℤ) : (m : ℚ) * 2 ^ e < 2 ^ ((m.log2 : ℤ) + e + 1) := by
  have hlog : (m : ℚ) < 2 ^ (m.log2 + 1) := by exact_mod_cast Nat.lt_log2_self
  rw [← two_pow_mul_zpow (m.log2 + 1) (k := e) (t := (m.log2 : ℤ) + e + 1) (by omega)]
  gcongr

/-- A number below `2^t` has its top bit below `t`. -/
theorem log2_add_lt {m : ℕ} (hm : m ≠ 0) {e t : ℤ} (h : (m : ℚ) * 2 ^ e < 2 ^ t) : (m.log2 : ℤ) + e < t :=
  (zpow_lt_zpow_iff_right₀ one_lt_two).1 ((two_zpow_log2_add_le hm e).trans_lt h)

/-- A number from `2^t` on has its top bit at `t` or above. -/
theorem le_log2_add {m : ℕ} {e t : ℤ} (h : (2 : ℚ) ^ t ≤ m * 2 ^ e) : t ≤ (m.log2 : ℤ) + e :=
  Int.lt_add_one_iff.1 ((zpow_lt_zpow_iff_right₀ one_lt_two).1 (h.trans_lt (lt_two_zpow_log2_add m e)))

/-! ### What is presented denotes the number (R80, R95) -/

/-- The pattern is finite and denotes the number with sign `neg` and magnitude `q`. -/
def Denotes (p : Val32) (neg : Bool) (q : ℚ) : Prop :=
  f32Finite p = true ∧ f32Sign p = neg ∧ (f32val p).toRat = some (withSign neg q)

theorem denotes_packF32_exponent_zero (neg : Bool) {F : ℕ} (hF : F < 2 ^ 23) :
    Denotes (packF32 neg 0 F) neg ((F : ℚ) * 2 ^ (-149 : ℤ)) := by
  have hE : f32Exponent (packF32 neg 0 F) = 0 := f32Exponent_packF32 neg F (by norm_num)
  refine ⟨(f32Finite_iff _).2 (by omega), f32Sign_packF32 .., ?_⟩
  rw [toRat_f32val_of_exponent_zero hE, f32Sign_packF32, f32Fraction_packF32 neg 0 hF]

theorem denotes_packF32_normal (neg : Bool) {E F : ℕ} (hpos : E ≠ 0) (hfin : E ≤ 254) (hF : F < 2 ^ 23) :
    Denotes (packF32 neg E F) neg (((2 ^ 23 + F : ℕ) : ℚ) * 2 ^ ((E : ℤ) - 150)) := by
  have hE : f32Exponent (packF32 neg E F) = E := f32Exponent_packF32 neg F (by omega)
  have hfinite : f32Finite (packF32 neg E F) = true := (f32Finite_iff _).2 (by omega)
  refine ⟨hfinite, f32Sign_packF32 .., ?_⟩
  rw [toRat_f32val_of_normal (by omega) hfinite, f32Sign_packF32, f32Fraction_packF32 neg E hF, hE]

/-- A normal operand keeps the number: its significand has 24 bits. -/
theorem denotes_of_normal (neg : Bool) {m f : ℕ} {e : ℤ} (hm : m ≠ 0) (hlo : -126 ≤ (m.log2 : ℤ) + e)
    (hhi : (m.log2 : ℤ) + e ≤ 127) (hf : (f : ℚ) = m * 2 ^ (23 - (m.log2 : ℤ))) :
    Denotes (packF32 neg ((m.log2 : ℤ) + e + 127).toNat (f - 2 ^ 23)) neg (m * 2 ^ e) := by
  have hge : 2 ^ 23 ≤ f := by
    have h := two_zpow_log2_add_le hm (23 - (m.log2 : ℤ))
    rw [← hf, add_sub_cancel] at h
    exact_mod_cast h
  have hlt : f < 2 ^ 24 := by
    have h := lt_two_zpow_log2_add m (23 - (m.log2 : ℤ))
    rw [← hf, add_sub_cancel] at h
    exact_mod_cast h
  obtain ⟨E, hE⟩ := Int.eq_ofNat_of_zero_le (show 0 ≤ (m.log2 : ℤ) + e + 127 by omega)
  have hden := denotes_packF32_normal neg (E := E) (F := f - 2 ^ 23) (by omega) (by omega) (by omega)
  rw [Nat.add_sub_cancel' hge, (eq_mul_zpow_iff _ _ (e := e) (by omega)).1 hf] at hden
  rwa [hE, Int.toNat_natCast]

/-- A subnormal operand keeps the number: its fraction has 23 bits. -/
theorem denotes_of_subnormal (neg : Bool) {m f : ℕ} {e : ℤ} (hlow : (m.log2 : ℤ) + e < -126)
    (hf : (f : ℚ) = m * 2 ^ (e + 149)) : Denotes (packF32 neg 0 f) neg (m * 2 ^ e) := by
  have hlt : f < 2 ^ 23 := by
    have h := lt_two_zpow_log2_add m (e + 149)
    have hle : (2 : ℚ) ^ ((m.log2 : ℤ) + (e + 149) + 1) ≤ 2 ^ (23 : ℤ) := zpow_le_zpow_right₀ one_le_two (by omega)
    rw [← hf] at h
    exact_mod_cast h.trans_le hle
  have hden := denotes_packF32_exponent_zero neg hlt
  rwa [(eq_mul_zpow_iff _ _ (e := e) (by omega)).1 hf] at hden

/-- Settles O19: the number is 0, or it is presented as a normal or as a subnormal, which keeps it. -/
theorem floatOperandsAreExact : Obligations.FloatOperandsAreExact := by
  intro neg m e p h
  by_cases hm : m = 0
  · subst hm
    obtain rfl := Option.some.inj ((exactF32_zero neg e).symm.trans h)
    simpa [Denotes] using denotes_packF32_exponent_zero neg (F := 0) (by norm_num)
  by_cases hlarge : 127 < (m.log2 : ℤ) + e
  · rw [exactF32_of_large neg hm hlarge] at h
    cases h
  by_cases hlow : (m.log2 : ℤ) + e < -126
  · rw [exactF32_of_subnormal neg hm hlow] at h
    obtain ⟨f, hf, rfl⟩ := Option.map_eq_some_iff.1 h
    exact denotes_of_subnormal neg hlow ((scaleExact_eq_some_iff ..).1 hf)
  · rw [exactF32_of_normal neg hm (by omega) (by omega)] at h
    obtain ⟨f, hf, rfl⟩ := Option.map_eq_some_iff.1 h
    exact denotes_of_normal neg hm (by omega) (by omega) ((scaleExact_eq_some_iff ..).1 hf)

/-! ### Every finite pattern is presented (R80, R95) -/

/-- A number in units of `2^-149`, fewer than `2^23` of them, is presented as a zero or as a subnormal. -/
theorem exactF32_of_exponent_zero (neg : Bool) {m F : ℕ} {e : ℤ} (hF : F < 2 ^ 23)
    (h : (F : ℚ) * 2 ^ (-149 : ℤ) = m * 2 ^ e) : exactF32 neg m e = some (packF32 neg 0 F) := by
  by_cases hm : m = 0
  · subst hm
    obtain rfl : F = 0 := by simpa using h
    rfl
  have hlow : (m.log2 : ℤ) + e < -126 := by
    refine log2_add_lt hm ?_
    have hF : (F : ℚ) < 2 ^ 23 := by exact_mod_cast hF
    calc (m : ℚ) * 2 ^ e = F * 2 ^ (-149 : ℤ) := h.symm
      _ < 2 ^ 23 * 2 ^ (-149 : ℤ) := by gcongr
      _ = 2 ^ (-126 : ℤ) := two_pow_mul_zpow 23 (by norm_num)
  rw [exactF32_of_subnormal neg hm hlow, (scaleExact_eq_some_iff _ _ F).2 ((eq_mul_zpow_iff _ _ (by omega)).2 h),
    Option.map_some]

/-- A number with a significand of 24 bits is presented as a normal. -/
theorem exactF32_of_significand (neg : Bool) {m E F : ℕ} {e : ℤ} (hpos : E ≠ 0) (hfin : E ≤ 254) (hF : F < 2 ^ 23)
    (h : ((2 ^ 23 + F : ℕ) : ℚ) * 2 ^ ((E : ℤ) - 150) = m * 2 ^ e) :
    exactF32 neg m e = some (packF32 neg E F) := by
  have hm : m ≠ 0 := by
    rintro rfl
    have hpos : ((2 ^ 23 + F : ℕ) : ℚ) * 2 ^ ((E : ℤ) - 150) ≠ 0 := by positivity
    exact hpos (by rw [h, Nat.cast_zero, zero_mul])
  have hlo : (E : ℤ) - 127 ≤ (m.log2 : ℤ) + e := by
    refine le_log2_add ?_
    rw [← h, ← two_pow_mul_zpow 23 (k := (E : ℤ) - 150) (t := (E : ℤ) - 127) (by omega)]
    gcongr
    exact_mod_cast Nat.le_add_right ..
  have hhi : (m.log2 : ℤ) + e < E - 126 := by
    refine log2_add_lt hm ?_
    rw [← h, ← two_pow_mul_zpow 24 (k := (E : ℤ) - 150) (t := (E : ℤ) - 126) (by omega)]
    gcongr
    exact_mod_cast show 2 ^ 23 + F < 2 ^ 24 by omega
  rw [exactF32_of_normal neg hm (by omega) (by omega),
    (scaleExact_eq_some_iff _ _ (2 ^ 23 + F)).2 ((eq_mul_zpow_iff _ _ (by omega)).2 h), Option.map_some,
    Nat.add_sub_cancel_left, show (m.log2 : ℤ) + e + 127 = E by omega, Int.toNat_natCast]

/-- Settles O20: the fields of the pattern are the number, and are put together again. -/
theorem everyFiniteFloatIsPresentable : Obligations.EveryFiniteFloatIsPresentable := by
  intro p m e hfin h
  have hF := f32Fraction_lt p
  have hfields := packF32_fields p
  by_cases hE : f32Exponent p = 0
  · rw [toRat_f32val_of_exponent_zero hE, Option.some_inj, withSign_inj] at h
    rw [exactF32_of_exponent_zero _ hF h, ← hE, hfields]
  · rw [toRat_f32val_of_normal hE hfin, Option.some_inj, withSign_inj] at h
    rw [exactF32_of_significand _ hE ((f32Finite_iff p).1 hfin) hF h, hfields]

end Sys2Proof.Machine
end

section
/-! PROOFS. The encodes (`40_encode.md`): the frame of every instruction, the split of a pattern, and that an encode never
fails. -/

namespace Sys2Proof.Machine

/-! ### The frame of every instruction (R90, R91, R100, R101, R137) -/

/-- The issuer after its command is answered: a result is received, FormatError is taken as a failure. -/
def Requester.answered (q : Requester) (r : Response) (bound : Val32 → Value) : Requester :=
  match r with
  | .ok p => q.receive (.response (.ok p)) (bound p)
  | .formatError => q.fail .formatError

@[simp] theorem answered_role (q : Requester) (r : Response) (f : Val32 → Value) : (q.answered r f).role = q.role := by
  cases r <;> rfl

@[simp] theorem answered_program (q : Requester) (r : Response) (f : Val32 → Value) :
    (q.answered r f).program = q.program := by
  cases r <;> rfl

@[simp] theorem answered_dest (q : Requester) (r : Response) (f : Val32 → Value) : (q.answered r f).dest = q.dest := by
  cases r <;> rfl

@[simp] theorem answered_inFlight (q : Requester) (r : Response) (f : Val32 → Value) :
    (q.answered r f).inFlight = q.inFlight := by
  cases r <;> rfl

/-- An instruction does one thing: its issuer is answered. -/
theorem exec_eq_answered (i : Instr) (s : State) :
    exec i s = .next (s.modifyRequester s.issuer (·.answered (responseOf i) (boundValue i))) := by
  rw [exec_eq_deliver]
  cases responseOf i <;> rfl

/-- Settles O14: only the issuer is modified, and the response says how it is answered. -/
theorem codecInstructionsChangeOnlyTheIssuersAnswers : Obligations.CodecInstructionsChangeOnlyTheIssuersAnswers := by
  intro i s t h
  rw [exec_eq_answered] at h
  injection h with h
  subst h
  refine ⟨fun _ _ => rfl, rfl, rfl, rfl, rfl, rfl, List.length_modify .., fun k hk => by simp [hk.symm], fun q hq =>
    ⟨_, modified_requester _ hq, answered_role .., answered_program .., answered_dest .., answered_inFlight .., ?_⟩⟩
  cases responseOf i with
  | ok p => exact .inl ⟨p, rfl, rfl, rfl, rfl⟩
  | formatError => exact .inr ⟨rfl, rfl, rfl, rfl⟩

/-! ### The split of a pattern (R90, R91) -/

/-- The two words of a pattern read together are the pattern. -/
theorem unsignedReading_hi_lo (p : Val32) :
    unsignedReading (hiWord p) * 65536 + unsignedReading (loWord p) = unsignedReading p := by
  simp only [unsignedReading, ← toNat_joinWords, joinWords_hi_lo]

/-- The answer of an encode is the pattern, and the sequence bound is its two words. -/
theorem deliver_encodeResponse (s : State) (p : Val32) :
    s.deliver (encodeResponse p) pairValue = s.modifyRequester s.issuer
      (·.receive (.response (.ok (joinWords (hiWord p) (loWord p)))) (.words [hiWord p, loWord p])) := by
  rw [encodeResponse_eq, joinWords_hi_lo]
  exact deliver_ok ..

/-- Settles O6: the pattern of `v` is `v mod 2^32`, and its two words are all of it. -/
theorem encI32SplitsThePattern : Obligations.EncI32SplitsThePattern := by
  intro len p s
  refine ⟨decodeOfEncodeIsTheInstruction (.encI32 len p), joinWords_hi_lo p, fun v hv => ?_,
    congrArg Host.Outcome.next (deliver_encodeResponse s p)⟩
  obtain ⟨_, rfl⟩ := (pat32_eq_some_iff v p).1 hv
  rw [← unsignedReading_ofInt 32 v]
  exact_mod_cast unsignedReading_hi_lo _

/-- Settles O7: the two words are all of the pattern, whatever it is. -/
theorem encF32SplitsThePattern : Obligations.EncF32SplitsThePattern := fun len p s =>
  ⟨decodeOfEncodeIsTheInstruction (.encF32 len p), joinWords_hi_lo p,
    congrArg Host.Outcome.next (deliver_encodeResponse s p)⟩

/-! ### An encode never fails (R92) -/

theorem opcode_of_high_bit_clear : ∀ op : BitVec 2, op.getLsbD 1 = false → op = 0 ∨ op = 1 := by
  decide

/-- A command word with `op[1] = 0` is one of the two encodes. -/
theorem decode_of_bit_41_clear {cw : CmdWord} (h : cw.getLsbD 41 = false) :
    decode cw = .encI32 (cmdLen cw) (cmdPayload cw) ∨ decode cw = .encF32 (cmdLen cw) (cmdPayload cw) := by
  have hop : (cmdOp cw).getLsbD 1 = false := by simpa [cmdOp] using h
  rw [decode_eq_iff, decode_eq_iff]
  exact (opcode_of_high_bit_clear _ hop).imp (⟨·, rfl, rfl⟩) (⟨·, rfl, rfl⟩)

/-- The unit answers an encode with the payload. -/
theorem responseOf_decode_of_bit_41_clear {cw : CmdWord} (h : cw.getLsbD 41 = false) :
    responseOf (decode cw) = .ok (cmdPayload cw) := by
  rcases decode_of_bit_41_clear h with hcw | hcw <;> rw [hcw] <;> exact encodeResponse_eq _

/-- Settles O10: the word is an encode, which is answered with its payload. -/
theorem encodesNeverFail : Obligations.EncodesNeverFail := by
  intro cw s h
  have hok := responseOf_decode_of_bit_41_clear h
  exact ⟨_, hok, rfl, by rw [hok]; rfl, by rw [exec_eq_deliver, hok]⟩

end Sys2Proof.Machine
end

section
/-! PROOFS. The decodes (`41_decode.md`): the join of two words, FormatError, the round trips, and that the commands of two
requesters do not interact. -/

namespace Sys2Proof.Machine

/-! ### FormatError (R102) -/

/-- The length field alone decides whether a decode fails. -/
theorem decodeResponse_eq_formatError_iff (len : BitVec 8) (p : Val32) :
    decodeResponse len p = .formatError ↔ len ≠ 2 := by
  refine ⟨?_, decodeResponse_of_ne len p⟩
  rintro h rfl
  cases (decodeResponse_two p).symm.trans h

theorem err_eq_one_iff (r : Response) : r.err = 1 ↔ r = .formatError := by
  cases r with
  | ok p => simp [Response.err]
  | formatError => simp [Response.err]

/-- A decode of another length than 2 fails its issuer, whatever its payload is. -/
theorem exec_decCommand_of_ne (k : ValueKind) {len : BitVec 8} (h : len ≠ 2) (p : Val32) (s : State) :
    exec (decCommand k len p) s = .next (s.modifyRequester s.issuer (·.fail .formatError)) := by
  rw [exec_eq_deliver, responseOf_decCommand, decodeResponse_of_ne len p h, deliver_formatError]

/-- Settles O11: both decodes answer with `decodeResponse`, which fails exactly when `len` is not 2. -/
theorem formatErrorExactlyWhenLengthIsNotTwo : Obligations.FormatErrorExactlyWhenLengthIsNotTwo := by
  intro len p p' s
  have hfails := decodeResponse_eq_formatError_iff len p
  have herr := (err_eq_one_iff _).trans hfails
  have hword (h : len ≠ 2) : (decodeResponse len p).word = none := by rw [hfails.2 h, Response.word]
  have hexec (k : ValueKind) (h : len ≠ 2) : exec (decCommand k len p) s = exec (decCommand k len p') s := by
    rw [exec_decCommand_of_ne k h, exec_decCommand_of_ne k h]
  exact ⟨hfails, hfails, herr, herr, fun h => ⟨hword h, hword h⟩, fun h => ⟨hexec .int32 h, hexec .float32 h⟩⟩

/-! ### The join of two words (R100, R101) -/

theorem boundValue_decCommand (k : ValueKind) (len : BitVec 8) (p : Val32) :
    boundValue (decCommand k len p) = Value.val := by
  cases k <;> rfl

theorem responseOf_decCommand_two (k : ValueKind) (p : Val32) : responseOf (decCommand k 2 p) = .ok p :=
  (responseOf_decCommand k 2 p).trans (decodeResponse_two p)

/-- A decode of length 2 gives its issuer the payload, bit for bit. -/
theorem exec_decCommand_two (k : ValueKind) (p : Val32) (s : State) :
    exec (decCommand k 2 p) s = .next (s.modifyRequester s.issuer (·.receive (.response (.ok p)) (.val p))) := by
  rw [exec_eq_deliver, responseOf_decCommand_two, boundValue_decCommand, deliver_ok]

/-- Settles O8: the payload is the join of the two words, and the length field is 2 or not. -/
theorem decI32JoinsTheWords : Obligations.DecI32JoinsTheWords := fun w0 w1 s =>
  ⟨decodeOfEncodeIsTheInstruction (.decI32 2 (w0 ++ w1)), toNat_joinWords w0 w1, exec_decCommand_two .int32 (w0 ++ w1) s,
    fun _ p h => exec_decCommand_of_ne .int32 h p s⟩

/-- Settles O9: the payload is the join of the two words, and the length field is 2 or not. -/
theorem decF32JoinsTheWords : Obligations.DecF32JoinsTheWords := fun w0 w1 s =>
  ⟨decodeOfEncodeIsTheInstruction (.decF32 2 (w0 ++ w1)), exec_decCommand_two .float32 (w0 ++ w1) s,
    fun _ p h => exec_decCommand_of_ne .float32 h p s⟩

/-! ### Round trips (R103, R104) -/

theorem responseOf_encCommand (k : ValueKind) (p : Val32) : responseOf (encCommand k p) = .ok p := by
  cases k <;> exact encodeResponse_eq p

/-- Settles O15: an encode and a decode of length 2 both answer with their payload, whatever the kinds. -/
theorem roundTripOfBits : Obligations.RoundTripOfBits := by
  refine ⟨fun k k' p => ⟨p, responseOf_encCommand k p, ?_⟩, fun k k' w0 w1 =>
    ⟨joinWords w0 w1, responseOf_decCommand_two k _, joinWords w0 w1, responseOf_encCommand k' _,
      hiWord_joinWords w0 w1, loWord_joinWords w0 w1⟩⟩
  rw [joinWords_hi_lo, responseOf_decCommand_two]

/-- Settles O16: the bits come back, and the two readings of the pattern of `v` are those of R10. -/
theorem roundTripOfIntegers : Obligations.RoundTripOfIntegers := by
  intro v hlo hhi
  obtain ⟨r, henc, hdec⟩ := roundTripOfBits.1 .int32 .int32 (BitVec.ofInt 32 v)
  have hread := unsignedReading_ofInt 32 v
  refine ⟨_, r, (pat32_eq_some_iff v _).2 ⟨⟨hlo, hhi⟩, rfl⟩, henc, hdec, hread, ?_, fun hneg => ?_,
    signedReading_ofInt_of_range v hlo⟩ <;> omega

/-! ### Two commands of two requesters (R106, R142) -/

/-- A command does one thing to the requesters: the one that issues it awaits the answer and is answered. -/
theorem issue_eq_answered (who : Nat) (d : Name) (i : Instr) (s : State) :
    issue who d i s =
      .next ((s.atPorts who d).modifyRequester who (·.answered (responseOf i) (boundValue i))) :=
  exec_eq_answered i (s.atPorts who d)

/-- Settles O22: each command modifies its own requester, so the two modifications commute. -/
theorem commandsOfTwoRequestersDoNotInteract : Obligations.CommandsOfTwoRequestersDoNotInteract := by
  intro i i' who who' d d' s hne
  refine ⟨_, _, _, _, issue_eq_answered who d i s, issue_eq_answered who' d' i' _, issue_eq_answered who' d' i' s,
    issue_eq_answered who d i _, ?_, rfl, rfl, ?_, ?_⟩
  · simp [List.modify_modify_eq, List.modify_modify_ne _ _ _ hne]
  · simp [hne.symm]
  · simp [hne]

end Sys2Proof.Machine
end

section
/-! PROOFS. Field access (`42_field_access.md`): the two turns of a field's store and of its load, their refusal at the end of a
bank, and the load of what was stored. -/

namespace Sys2Proof.Machine

/-! ### A requester about to perform lines -/

/-- In `s`, whose parameters are `p`, requester `who` has nothing in flight and is about to perform `program`; `names` and
`fault` are its names and its fault. -/
structure AboutTo (p : Params) (who : Nat) (program : List Line) (names : List (Name × Value)) (fault : Option Cause)
    (s : State) : Prop where
  params : s.params = p
  requester : ∃ q, s.requesters[who]? = some q ∧ q.program = program ∧ q.inFlight = none ∧ q.fault = fault ∧ q.names = names

/-- The same lines are ahead of the requester wherever it and the parameters are the same. -/
theorem AboutTo.of_requester {p : Params} {who : Nat} {program : List Line} {names : List (Name × Value)}
    {fault : Option Cause} {s t : State} (h : AboutTo p who program names fault s) (hparams : t.params = s.params)
    (hreq : t.requesters[who]? = s.requesters[who]?) : AboutTo p who program names fault t :=
  ⟨hparams.trans h.params, by rw [hreq]; exact h.requester⟩

section
variable {p : Params} {who : Nat} {line : Line} {rest : List Line} {names : List (Name × Value)} {fault : Option Cause}
  {s : State}

/-- A turn of the requester runs its next line, from a state in which it is about to perform the others. -/
theorem AboutTo.takeTurn_line (h : AboutTo p who (line :: rest) names fault s) (c : Nat) :
    ∃ s', AboutTo p who rest names fault s' ∧ s'.memory = s.memory ∧
      takeTurn who c s = runLine who c names rest line s' := by
  obtain ⟨hparams, q, hq, hprogram, hidle, hfault, rfl⟩ := h
  exact ⟨s.modifyRequester who (·.withProgram rest), ⟨hparams, _, modified_requester _ hq, rfl, hidle, hfault, rfl⟩, rfl,
    takeTurn_of_line c hq hidle hprogram⟩

/-- A command that is answered with a result binds its name and leaves the lines behind it. -/
theorem AboutTo.issue (h : AboutTo p who rest names fault s) {i : Instr} {v : Val32} (d : Name)
    (hresponse : responseOf i = .ok v) :
    ∃ t, issue who d i s = .next t ∧ AboutTo p who rest ((d, boundValue i v) :: names) fault t ∧ t.memory = s.memory := by
  obtain ⟨hparams, q, hq, hprogram, hidle, hfault, rfl⟩ := h
  rw [issue_eq_answered, hresponse]
  exact ⟨_, rfl, ⟨hparams, (q.await d).receive (.response (.ok v)) (boundValue i v), by simp [hq, Requester.answered],
    hprogram, hidle, hfault, rfl⟩, rfl⟩

/-- A failure leaves the requester faulted before the same lines. -/
theorem AboutTo.takeFailure (h : AboutTo p who rest names fault s) (cause : Cause) :
    AboutTo p who rest names (some cause) (s.takeFailure who cause) := by
  obtain ⟨hparams, q, hq, hprogram, hidle, _, hnames⟩ := h
  exact ⟨hparams, q.fail cause, modified_requester _ hq, hprogram, hidle, rfl, hnames⟩

end

/-! ### The turns of the four lines -/

section
variable {p : Params} {who : Nat} {rest : List Line} {names : List (Name × Value)} {fault : Option Cause} {s : State}

theorem boundValue_encCommand (k : ValueKind) (v : Val32) : boundValue (encCommand k v) = pairValue := by
  cases k <;> rfl

/-- The encode of either kind binds the two words of the value. -/
theorem takeTurn_enc {k : ValueKind} {o : ValOperand} {v : Val32} {d : Name}
    (h : AboutTo p who (.enc k o d :: rest) names fault s) (hv : evalVal names o = .ok v) (c : Nat) :
    ∃ t, takeTurn who c s = .next t ∧ AboutTo p who rest ((d, .words (wordsOf v)) :: names) fault t ∧
      t.memory = s.memory := by
  obtain ⟨s', hs', hmem, hturn⟩ := h.takeTurn_line c
  obtain ⟨t, ht, hafter, htmem⟩ := hs'.issue d (responseOf_encCommand k v)
  rw [boundValue_encCommand] at hafter
  exact ⟨t, by simp only [hturn, runLine, hv, ht], hafter, htmem.trans hmem⟩

/-- Word `k` of the sequence bound last. -/
theorem evalWord_elem_bound {x : Name} {ws : List Word} {k : Nat} {w : Word} (hw : ws[k]? = some w) :
    evalWord ((x, .words ws) :: names) (.elem x k) = .ok w := by
  simp [evalWord, evalElem, lookupName, hw]

/-- The decode of either kind of the two words bound to `x` binds the value they make. -/
theorem takeTurn_dec {k : ValueKind} {x d : Name} {w₀ w₁ : Word}
    (h : AboutTo p who (.dec k 2 (.elem x 0) (.elem x 1) d :: rest) ((x, .words [w₀, w₁]) :: names) fault s) (c : Nat) :
    ∃ t, takeTurn who c s = .next t ∧
      AboutTo p who rest ((d, .val (joinWords w₀ w₁)) :: (x, .words [w₀, w₁]) :: names) fault t ∧ t.memory = s.memory := by
  obtain ⟨s', hs', hmem, hturn⟩ := h.takeTurn_line c
  obtain ⟨t, ht, hafter, htmem⟩ := hs'.issue d (responseOf_decCommand_two k (joinWords w₀ w₁))
  rw [boundValue_decCommand] at hafter
  have h₀ : evalWord ((x, .words [w₀, w₁]) :: names) (.elem x 0) = .ok w₀ := evalWord_elem_bound rfl
  have h₁ : evalWord ((x, .words [w₀, w₁]) :: names) (.elem x 1) = .ok w₁ := evalWord_elem_bound rfl
  exact ⟨t, by simp only [hturn, runLine, h₀, h₁, ht], hafter, htmem.trans hmem⟩

/-- A valid `MemWrite` that is one unit stores its words in one turn, and no other word changes. -/
theorem takeTurn_memWrite {b : Bank} {a : Nat} {os : List WordOperand} {ws : List Word}
    (h : AboutTo p who (.memWrite b a os :: rest) names fault s) (hws : evalWords names os = .ok ws) (hn : 1 ≤ ws.length)
    (hcap : a + ws.length ≤ p.capacity) (hone : (unitsOf p b a ws.length).length = 1) (c : Nat) :
    ∃ t, takeTurn who c s = .next t ∧ AboutTo p who rest names fault t ∧
      (∀ k w, ws[k]? = some w → t.readWord b (a + k) = w) ∧
      (∀ b' x, b' ≠ b ∨ x < a ∨ a + ws.length ≤ x → t.readWord b' x = s.readWord b' x) := by
  obtain ⟨rfl, q, hq, hprogram, hidle, hfault, rfl⟩ := h
  obtain ⟨t, ht, hwords, hother, hparams, hrequesters⟩ :=
    writesStoreTheWordsInEveryUnitOrder s who q b a os ws rest [c] hq hidle hprogram hws hn hcap hone.symm
  exact ⟨t, takeTurn_of_repeatTurns ht,
    ⟨hparams, { q with program := rest, inFlight := none }, by simp [hrequesters, hq], rfl, rfl, hfault, rfl⟩, hwords, hother⟩

/-- A valid `MemRead` that is one unit binds the words as they stand in one turn. -/
theorem takeTurn_memRead {b : Bank} {a n : Nat} {d : Name} (h : AboutTo p who (.memRead b a n d :: rest) names fault s)
    (hn : 1 ≤ n) (hcap : a + n ≤ p.capacity) (hone : (unitsOf p b a n).length = 1) (c : Nat) :
    ∃ t, takeTurn who c s = .next t ∧
      AboutTo p who rest ((d, .words ((List.range' a n).map (s.readWord b))) :: names) fault t ∧ t.memory = s.memory := by
  obtain ⟨rfl, q, hq, hprogram, hidle, hfault, rfl⟩ := h
  have ht := readsReturnTheWordsInEveryUnitOrder s who q b a n d rest [c] hq hidle hprogram hn hcap hone.symm
  exact ⟨_, takeTurn_of_repeatTurns ht, ⟨rfl, _, modified_requester (s := s) _ hq, rfl, rfl, hfault, rfl⟩, rfl⟩

/-- A `MemWrite` past the end of the bank is refused whole in one turn. -/
theorem takeTurn_memWrite_refused {b : Bank} {a : Nat} {os : List WordOperand} {ws : List Word}
    (h : AboutTo p who (.memWrite b a os :: rest) names fault s) (hws : evalWords names os = .ok ws)
    (hcap : p.capacity < a + ws.length) (c : Nat) :
    ∃ t, takeTurn who c s = .next t ∧ AboutTo p who rest names (some .addressInvalid) t ∧ t.memory = s.memory := by
  obtain ⟨s', hs', hmem, hturn⟩ := h.takeTurn_line c
  have hinvalid : ¬ validRequest s'.params a ws.length = true := by
    rw [validRequest_iff, hs'.params]
    omega
  exact ⟨_, by simp only [hturn, runLine, hws, execMemWrite, if_neg hinvalid], hs'.takeFailure _, hmem⟩

end

/-- A `MemRead` past the end of the bank is refused whole in one turn. -/
theorem takeTurn_memRead_refused {s : State} {who : Nat} {q : Requester} {b : Bank} {a n : Nat} {d : Name}
    {rest : List Line} (hq : s.requesters[who]? = some q) (hidle : q.inFlight = none)
    (hprogram : q.program = .memRead b a n d :: rest) (hcap : s.params.capacity < a + n) (c : Nat) :
    takeTurn who c s =
      .next (s.modifyRequester who fun _ => ((q.withProgram rest).await d).fail .addressInvalid) := by
  have hinvalid : ¬ validRequest s.params a n = true := by
    rw [validRequest_iff]
    omega
  rw [takeTurn_of_line c hq hidle hprogram, runLine, execMemRead, modifyRequester_params, modifyRequester_params,
    if_neg hinvalid, State.takeFailure, modifyRequester_modifyRequester, modifyRequester_modifyRequester]
  exact congrArg Host.Outcome.next (modifyRequester_congr hq rfl)

/-! ### The expansions (R81, R110 to R114) -/

/-- The store of a field of a kind. -/
def fieldStore (k : ValueKind) (b : Bank) (a : Nat) (o : ValOperand) : Pseudo :=
  match k with
  | .int32 => .sti32 b a o
  | .float32 => .stf32 b a o

/-- The load of a field of a kind. -/
def fieldLoad (k : ValueKind) (b : Bank) (a : Nat) (d : Name) : Pseudo :=
  match k with
  | .int32 => .ldi32 b a d
  | .float32 => .ldf32 b a d

theorem expand_fieldStore (k : ValueKind) (b : Bank) (a : Nat) (o : ValOperand) (tmp : Name) (rest : List Line) :
    (fieldStore k b a o).expand tmp ++ rest = .enc k o tmp :: .memWrite b a [.elem tmp 0, .elem tmp 1] :: rest := by
  cases k <;> rfl

theorem expand_fieldLoad (k : ValueKind) (b : Bank) (a : Nat) (d tmp : Name) (rest : List Line) :
    (fieldLoad k b a d).expand tmp ++ rest = .memRead b a 2 tmp :: .dec k 2 (.elem tmp 0) (.elem tmp 1) d :: rest := by
  cases k <;> rfl

section
variable {p : Params} {who : Nat} {rest : List Line} {names : List (Name × Value)} {fault : Option Cause} {s : State}
  {b : Bank} {a : Nat}

/-- The words of the store of a field are those its encode has bound. -/
theorem evalWords_pair_bound (tmp : Name) (v : Val32) :
    evalWords ((tmp, .words (wordsOf v)) :: names) [.elem tmp 0, .elem tmp 1] = .ok [hiWord v, loWord v] := by
  simp only [evalWords, evalWord_elem_bound (ws := wordsOf v) (k := 0) (w := hiWord v) rfl,
    evalWord_elem_bound (ws := wordsOf v) (k := 1) (w := loWord v) rfl]

/-- The second turn of a field's store puts both words in the bank, and no other word changes. -/
theorem takeTurn_storePair {tmp : Name} {v : Val32} (hconf : p.atomicity.conforming = true) (hcap : a + 2 ≤ p.capacity)
    (h : AboutTo p who (.memWrite b a [.elem tmp 0, .elem tmp 1] :: rest) ((tmp, .words (wordsOf v)) :: names) fault s)
    (c : Nat) :
    ∃ t, takeTurn who c s = .next t ∧ AboutTo p who rest ((tmp, .words (wordsOf v)) :: names) fault t ∧
      t.readWord b a = hiWord v ∧ t.readWord b (a + 1) = loWord v ∧
      (∀ b' x, b' ≠ b ∨ (x ≠ a ∧ x ≠ a + 1) → t.readWord b' x = s.readWord b' x) := by
  obtain ⟨t, ht, hafter, hwords, hother⟩ := takeTurn_memWrite h (evalWords_pair_bound tmp v) (Nat.le_add_left 1 1) hcap
    (unitsOf_two_length b a hconf) c
  refine ⟨t, ht, hafter, hwords 0 _ rfl, hwords 1 _ rfl, fun b' x hout => hother b' x (hout.imp_right ?_)⟩
  simp only [List.length_cons, List.length_nil]
  omega

/-- The first turn of a field's load takes both words as they stand. -/
theorem takeTurn_loadPair {tmp : Name} (hconf : p.atomicity.conforming = true) (hcap : a + 2 ≤ p.capacity)
    (h : AboutTo p who (.memRead b a 2 tmp :: rest) names fault s) (c : Nat) :
    ∃ t, takeTurn who c s = .next t ∧
      AboutTo p who rest ((tmp, .words [s.readWord b a, s.readWord b (a + 1)]) :: names) fault t ∧ t.memory = s.memory :=
  takeTurn_memRead h (Nat.le_add_left 1 1) hcap (unitsOf_two_length b a hconf) c

end

/-! ### Turns of one requester in a row -/

theorem repeatTurns_append {who : Nat} {cs : List Nat} {s t : State} (ds : List Nat)
    (h : repeatTurns who cs s = .next t) : repeatTurns who (cs ++ ds) s = repeatTurns who ds t := by
  induction cs generalizing s with
  | nil =>
    injection h with h
    rw [h, List.nil_append]
  | cons c cs ih =>
    simp only [List.cons_append, repeatTurns] at h ⊢
    split at h
    next hturn => exact ih h
    next => cases h
    next => cases h

/-- Two turns in a row. -/
theorem repeatTurns_two {who c c' : Nat} {s t u : State} (h : takeTurn who c s = .next t)
    (h' : takeTurn who c' t = .next u) : repeatTurns who [c, c'] s = .next u := by
  simp only [repeatTurns, h, h']

/-- What turns of one requester in a row leave alone. -/
theorem moved_repeatTurns {who : Nat} {cs : List Nat} {s t : State} (h : repeatTurns who cs s = .next t) :
    Moved who s t := by
  induction cs generalizing s with
  | nil =>
    injection h with h
    exact h ▸ Moved.refl who s
  | cons c cs ih =>
    simp only [repeatTurns] at h
    split at h
    next hturn => exact (moved_takeTurn _ _ _ _ hturn).trans (ih h)
    next => cases h
    next => cases h

/-! ### The store of a field (R110, R111) -/

theorem aboutTo_of_program {s : State} {who : Nat} {q : Requester} {program : List Line}
    (hq : s.requesters[who]? = some q) (hidle : q.inFlight = none) (hprogram : q.program = program) :
    AboutTo s.params who program q.names q.fault s :=
  ⟨rfl, q, hq, hprogram, hidle, rfl, rfl⟩

/-- Settles O43: the encode binds the two words, and the one unit of the write stores them. -/
theorem fieldStoreLeavesHiThenLo : Obligations.FieldStoreLeavesHiThenLo := by
  intro s who q k b a o v tmp rest c c' hq hidle hconf hprogram hv hcap
  have hlines := hprogram.trans (expand_fieldStore k b a o tmp rest)
  obtain ⟨s₁, h₁, hstore, hmem⟩ := takeTurn_enc (aboutTo_of_program hq hidle hlines) hv c
  obtain ⟨t, h₂, ⟨_, q', hq', hrest, hidle', hfault, _⟩, hhi, hlo, hother⟩ := takeTurn_storePair hconf hcap hstore c'
  have hturns := repeatTurns_two h₁ h₂
  exact ⟨t, hturns, hhi, hlo, fun b' x hout => (hother b' x hout).trans (readWord_of_memory hmem hstore.params b' x),
    ⟨q', hq', hrest, hidle', hfault⟩, (moved_repeatTurns hturns).other⟩

/-- Settles O44: the encode leaves the bank alone, and the write is refused whole. -/
theorem fieldStorePastTheEndWritesNothing : Obligations.FieldStorePastTheEndWritesNothing := by
  intro s who q k b a o v tmp rest c c' hq hidle hprogram hv hcap
  have hlines := hprogram.trans (expand_fieldStore k b a o tmp rest)
  obtain ⟨s₁, h₁, hstore, hmem⟩ := takeTurn_enc (aboutTo_of_program hq hidle hlines) hv c
  obtain ⟨t, h₂, ⟨_, q', hq', hrest, _, hfault, _⟩, hmem'⟩ :=
    takeTurn_memWrite_refused hstore (evalWords_pair_bound tmp v) hcap c'
  have hturns := repeatTurns_two h₁ h₂
  exact ⟨t, hturns, hmem'.trans hmem, ⟨q', hq', hfault, hrest⟩, (moved_repeatTurns hturns).other⟩

/-! ### The load of a field (R112, R113) -/

/-- Settles O45: the one unit of the read takes the two words, and the decode joins them. -/
theorem fieldLoadJoinsTheWords : Obligations.FieldLoadJoinsTheWords := by
  intro s who q k b a d tmp rest c c' hq hidle hconf hprogram hcap
  have hlines := hprogram.trans (expand_fieldLoad k b a d tmp rest)
  obtain ⟨s₁, h₁, hload, hmem⟩ := takeTurn_loadPair hconf hcap (aboutTo_of_program hq hidle hlines) c
  obtain ⟨t, h₂, ⟨_, q', hq', hrest, hidle', hfault, hnames⟩, hmem'⟩ := takeTurn_dec hload c'
  have hturns := repeatTurns_two h₁ h₂
  exact ⟨t, hturns, hmem'.trans hmem, ⟨q', hq', hrest, hidle', hfault, by rw [hnames]; exact if_pos rfl⟩,
    (moved_repeatTurns hturns).other⟩

/-- A faulted requester is not among those that can move (R138). -/
theorem not_mem_runnable_of_fault {s : State} {who : Nat} {q : Requester} {cause : Cause}
    (hq : s.requesters[who]? = some q) (hfault : q.fault = some cause) : who ∉ s.runnable := by
  intro hmem
  obtain ⟨_, q', hq', hmove⟩ := mem_movable 0 _ _ hmem
  obtain rfl := Option.some.inj (hq.symm.trans hq')
  cases hfault.symm.trans (fault_of_canMove hmove)

/-- Settles O57: the read is refused whole, and a faulted requester cannot move. -/
theorem fieldLoadPastTheEndIssuesNoDecode : Obligations.FieldLoadPastTheEndIssuesNoDecode := by
  intro s who q k b a d tmp rest c hq hidle hprogram hcap
  have hlines := hprogram.trans (expand_fieldLoad k b a d tmp rest)
  have hturn := takeTurn_memRead_refused hq hidle hlines hcap c
  exact ⟨_, hturn, rfl, rfl, ⟨_, modified_requester _ hq, rfl, rfl, rfl, rfl⟩,
    not_mem_runnable_of_fault (modified_requester _ hq) rfl, (moved_takeTurn _ _ _ _ hturn).other⟩

/-! ### The load of what was stored, with no other turn between (R115) -/

/-- Settles O46: the load's two turns follow the store's, which have left the two words of the value. -/
theorem fieldLoadAfterFieldStoreGivesTheValue : Obligations.FieldLoadAfterFieldStoreGivesTheValue := by
  intro s who q k k' b a v d tmp tmp' rest c₁ c₂ c₃ c₄ hq hidle hconf hprogram hcap
  rw [List.append_assoc] at hprogram
  obtain ⟨t, ht, hhi, hlo, _, ⟨q', hq', hload, hidle', hfault⟩, _⟩ :=
    fieldStoreLeavesHiThenLo s who q k b a (.lit v) v tmp _ c₁ c₂ hq hidle hconf hprogram rfl hcap
  have hparams := (moved_repeatTurns ht).params
  obtain ⟨u, hu, _, ⟨q'', hq'', hrest, _, hfault', hname⟩, _⟩ :=
    fieldLoadJoinsTheWords t who q' k' b a d tmp' rest c₃ c₄ hq' hidle' (hparams ▸ hconf) hload (hparams ▸ hcap)
  rw [hhi, hlo] at hname
  exact ⟨u, q'', (repeatTurns_append [c₃, c₄] ht).trans hu, hq'', joinWords_hi_lo v ▸ hname, hfault'.trans hfault, hrest⟩

/-! ### Turns of others between (R52, R53) -/

section
variable {p : Params} {who : Nat} {program : List Line} {names : List (Name × Value)} {fault : Option Cause} {s t : State}
  (h : AboutTo p who program names fault s)
include h

theorem AboutTo.spendTurn : AboutTo p who program names fault s.spendTurn := h.of_requester rfl rfl

/-- A step that is not the requester's own leaves the lines ahead of it. -/
theorem AboutTo.step_of_other (hc : s.chosen ≠ some who) (ht : step s = .next t) : AboutTo p who program names fault t := by
  rcases step_cases s t ht with ⟨_, rfl⟩ | ⟨other, hother, _, hmoved⟩
  · exact h
  · exact h.of_requester hmoved.params (hmoved.other who fun he => hc (he ▸ hother))

/-- However many steps of others leave the lines ahead of the requester. -/
theorem AboutTo.othersTake {ok : State → Prop} {n : Nat} (hothers : State.othersTake who ok n s t) :
    AboutTo p who program names fault t := by
  induction n generalizing s with
  | zero => exact hothers ▸ h
  | succ n ih =>
    obtain ⟨hc, _, u, hu, hrest⟩ := hothers
    exact ih (h.step_of_other hc hu) hrest

end

theorem length_of_evalWords {names : List (Name × Value)} {os : List WordOperand} {ws : List Word}
    (h : evalWords names os = .ok ws) : ws.length = os.length := by
  induction os generalizing ws with
  | nil =>
    injection h with h
    exact h ▸ rfl
  | cons o os ih =>
    simp only [evalWords] at h
    split at h
    next hws =>
      injection h with h
      rw [← h, List.length_cons, List.length_cons, ih hws]
    next => cases h
    next => cases h

/-- A turn that performs a unit of a write stores to the words of that unit. -/
theorem PerformsUnitOf.storesInTurn {p : Params} {q q₀ : Requester} {inv : Invocation} {cells : List WordCell} {c x : Nat}
    (h : PerformsUnitOf p q q₀ inv) (haccess : inv.access = .write cells) (hx : x ∈ chosenUnit inv c) :
    q.storesInTurn p c inv.bank x = true := by
  cases h with
  | inFlight hflight => simpa [Requester.storesInTurn, hflight, haccess] using hx
  | memRead => cases haccess
  | memWrite hidle hprogram hwords hvalid =>
    rw [length_of_evalWords hwords] at hvalid hx
    simp only [Requester.storesInTurn, hidle, hprogram, hvalid, beq_self_eq_true, Bool.true_and]
    exact List.contains_iff_mem.2 hx

/-- Words stored elsewhere leave a word as it was. -/
theorem readWord_writeCells_of_not_listed (b : Bank) {cells : List WordCell} {x : Nat} (h : ∀ cell ∈ cells, cell.1 ≠ x)
    (s : State) : (s.writeCells b cells).readWord b x = s.readWord b x := by
  induction cells generalizing s with
  | nil => rfl
  | cons cell cells ih =>
    obtain ⟨hne, hcells⟩ := List.forall_mem_cons.1 h
    rw [State.writeCells, ih hcells, readWord_writeWord, if_neg fun he => hne he.2.symm]

/-- A unit that changes a word is of a write and contains it. -/
theorem mem_chosenUnit_of_performUnit_readWord_ne {who c : Nat} {inv : Invocation} {s : State} {b : Bank} {x : Nat}
    (h : (performUnit who c inv s).readWord b x ≠ s.readWord b x) :
    ∃ cells, inv.access = .write cells ∧ inv.bank = b ∧ x ∈ chosenUnit inv c := by
  obtain ⟨cells, haccess, rfl⟩ := write_of_performUnit_readWord_ne h
  refine ⟨cells, haccess, rfl, by_contra fun hx => h ?_⟩
  have hlisted : ∀ cell ∈ cellsOfUnit (chosenUnit inv c) cells, cell.1 ≠ x := fun cell hcell he => by
    rw [cellsOfUnit, List.mem_filter, List.contains_iff_mem, he] at hcell
    exact hx hcell.2
  rw [← readWord_writeCells_of_not_listed inv.bank hlisted s]
  exact readWord_of_memory (performUnit_write_memory who c s haccess)
    ((moved_performUnit who c inv s).params.trans (writeCells_params ..).symm) inv.bank x

/-- A turn that stores to no unit with a word leaves the word as it was. -/
theorem readWord_of_takeTurn_not_stores {who c : Nat} {q : Requester} {s t : State} {b : Bank} {x : Nat}
    (hq : s.requesters[who]? = some q) (ht : takeTurn who c s = .next t) (h : q.storesInTurn s.params c b x = false) :
    t.readWord b x = s.readWord b x := by
  rcases takeTurn_cases hq ht with ⟨q₀, inv, hperf, rfl⟩ | ⟨hmem, _⟩
  · refine by_contra fun hne => ?_
    obtain ⟨cells, haccess, rfl, hx⟩ := mem_chosenUnit_of_performUnit_readWord_ne hne
    exact Bool.false_ne_true (h.symm.trans (hperf.storesInTurn haccess hx))
  · exact readWord_of_memory hmem (moved_takeTurn _ _ _ _ ht).params b x

/-- A step that performs no write unit to the pair leaves its value. -/
theorem pairAt_of_step_sparesPair {b : Bank} {a : Nat} {s t : State} (h : s.sparesPair b a) (ht : step s = .next t) :
    t.pairAt b a = s.pairAt b a := by
  rcases step_cases s t ht with ⟨_, rfl⟩ | ⟨who, hc, hturn, _⟩
  · rfl
  · obtain ⟨q, hq, _⟩ := chosen_canMove s who hc
    obtain ⟨hspared, hspared'⟩ := h who q hc hq
    have hhi := readWord_of_takeTurn_not_stores (s := s.spendTurn) hq hturn hspared
    have hlo := readWord_of_takeTurn_not_stores (s := s.spendTurn) hq hturn hspared'
    rw [State.pairAt, hhi, hlo]
    rfl

theorem pairAt_of_othersTake {who : Nat} {b : Bank} {a n : Nat} {s t : State}
    (h : State.othersTake who (State.sparesPair b a) n s t) : t.pairAt b a = s.pairAt b a := by
  induction n generalizing s with
  | zero => exact h ▸ rfl
  | succ n ih =>
    obtain ⟨_, hspares, u, hu, hrest⟩ := h
    exact (ih hrest).trans (pairAt_of_step_sparesPair hspares hu)

/-- Settles O58: the turns of others leave the lines ahead of the requester, and those between the two units leave the pair. -/
theorem fieldLoadAfterFieldStoreWithOtherTurnsBetween : Obligations.FieldLoadAfterFieldStoreWithOtherTurnsBetween := by
  intro s who q k k' b a v d tmp tmp' rest n₁ n₂ n₃ hc hq hidle hconf hprogram hcap
  rw [List.append_assoc] at hprogram
  have hlines := (hprogram.trans (expand_fieldStore k b a (.lit v) tmp _)).trans
    (congrArg (_ :: _ :: ·) (expand_fieldLoad k' b a d tmp' rest))
  obtain ⟨s₁, h₁, hstore, _⟩ := takeTurn_enc (aboutTo_of_program hq hidle hlines).spendTurn rfl s.nextTurn.unit
  refine ⟨s₁, (step_of_chosen hc).trans h₁, fun s₂ hgap hc₂ => ?_⟩
  obtain ⟨s₃, h₃, hload, hhi, hlo, _⟩ := takeTurn_storePair hconf hcap (hstore.othersTake hgap).spendTurn s₂.nextTurn.unit
  refine ⟨s₃, (step_of_chosen hc₂).trans h₃, fun s₄ hgap hc₄ => ?_⟩
  have hpair : s₄.pairAt b a = v := by
    rw [pairAt_of_othersTake hgap, State.pairAt, hhi, hlo, joinWords_hi_lo]
  obtain ⟨s₅, h₅, hdec, _⟩ := takeTurn_loadPair hconf hcap (hload.othersTake hgap).spendTurn s₄.nextTurn.unit
  refine ⟨s₅, (step_of_chosen hc₄).trans h₅, fun s₆ hgap hc₆ => ?_⟩
  obtain ⟨t, ht, ⟨_, q', hq', hrest, _, hfault, hnames⟩, _⟩ :=
    takeTurn_dec (hdec.othersTake hgap).spendTurn s₆.nextTurn.unit
  refine ⟨t, q', (step_of_chosen hc₆).trans ht, hq', ?_, hfault, hrest⟩
  rw [hnames, ← hpair]
  exact if_pos rfl

/-! ### Raw words (R114) -/

/-- Settles O47: a request of one word is one unit under every atomicity. -/
theorem rawWordsMoveUnchanged : Obligations.RawWordsMoveUnchanged := by
  intro s who q b a d tmp rest c hq hidle hcap
  have hone : (unitsOf s.params b a 1).length = 1 := by
    rw [unitsOf_eq_one _ b a 1 (.inr (.inr rfl))]
    rfl
  refine ⟨fun o w hprogram hw => ?_, fun hprogram => ?_⟩
  · have hws : evalWords q.names [o] = .ok [w] := by simp only [evalWords, hw]
    obtain ⟨t, ht, _, hword, hother⟩ :=
      takeTurn_memWrite (aboutTo_of_program hq hidle hprogram) hws (le_refl 1) hcap hone c
    refine ⟨t, ht, hword 0 w rfl, fun b' x hout => hother b' x (hout.imp_right ?_)⟩
    simp only [List.length_cons, List.length_nil]
    omega
  · have ht := takeTurn_of_repeatTurns
      (readsReturnTheWordsInEveryUnitOrder s who q b a 1 d rest [c] hq hidle hprogram (le_refl 1) hcap hone.symm)
    exact ⟨_, _, ht, rfl, modified_requester (s := s) _ hq, if_pos rfl, rfl⟩

/-! ### The telemetry frame (R30, R117) -/

/-- Settles O49: the frame has its words in the order of the map's addresses. -/
theorem telemetryFrameFillsTheMap : Obligations.TelemetryFrameFillsTheMap := by
  intro flag t1 t2
  refine ⟨rfl, rfl, ?_⟩
  simp only [List.forall_mem_cons]
  exact ⟨⟨rfl, rfl⟩, ⟨rfl, rfl⟩, ⟨rfl, rfl⟩, ⟨rfl, rfl⟩, ⟨rfl, rfl⟩, ⟨rfl, rfl⟩, List.forall_mem_nil _⟩

end Sys2Proof.Machine
end

section
/-! PROOFS. Exceptions (`60_exceptions.md`): the delivery of FormatError to its issuer alone, and that a faulted requester never
moves again. -/

namespace Sys2Proof.Machine

/-! ### The delivery of FormatError (R130, R137) -/

/-- An instruction whose response is FormatError fails its issuer and does nothing else. -/
theorem exec_of_formatError {i : Instr} (h : responseOf i = .formatError) (s : State) :
    exec i s = .next (s.modifyRequester s.issuer (·.fail .formatError)) := by
  rw [exec_eq_deliver, h, deliver_formatError]

/-- Settles O12: the one requester modified is the issuer, and it has failed. -/
theorem formatErrorFaultsOnlyTheIssuer : Obligations.FormatErrorFaultsOnlyTheIssuer := by
  intro i s q hresponse hq
  have hissuer := modified_requester (·.fail .formatError) hq
  have hmoved := moved_modify s.issuer s (·.fail .formatError) fun _ => rfl
  exact ⟨_, exec_of_formatError hresponse s, hissuer, hmoved.other, rfl, hmoved.params,
    not_mem_runnable_of_fault hissuer (fail_fault q .formatError)⟩

/-! ### No step of a faulted requester (R137, R138) -/

/-- The turn never goes to a faulted requester. -/
theorem chosen_ne_of_fault {s : State} {who k : Nat} {q : Requester} {cause : Cause} (hc : s.chosen = some who)
    (hq : s.requesters[k]? = some q) (hfault : q.fault = some cause) : k ≠ who := fun hk =>
  not_mem_runnable_of_fault hq hfault (hk ▸ List.mem_of_getElem? hc)

/-- Settles O27: a step is nothing, or the turn of one requester, which is not the faulted one. -/
theorem faultedRequestersNeverMove : Obligations.FaultedRequestersNeverMove := by
  intro s t k q cause h hq hfault
  rcases step_cases s t h with ⟨_, rfl⟩ | ⟨who, hc, _, hmoved⟩
  · exact hq
  · exact (hmoved.other k (chosen_ne_of_fault hc hq hfault)).trans hq

end Sys2Proof.Machine
end

section
/-! PROOFS. Reset and hazards (`70_reset_and_hazards.md`): only writes change words, the end of a run, and that every run of
finite programs ends (R151, R160, R161). -/

namespace Sys2Proof.Machine

/-! ### Which words a turn may change (R40, R56, R151) -/

/-- A unit that changes a word is of a write that holds a cell there. -/
theorem mem_cells_of_performUnit_readWord_ne {who c : Nat} {inv : Invocation} {s : State} {b : Bank} {a : Nat}
    (h : (performUnit who c inv s).readWord b a ≠ s.readWord b a) :
    ∃ cells, inv.access = .write cells ∧ inv.bank = b ∧ ∃ cell ∈ cells, cell.1 = a := by
  obtain ⟨cells, haccess, rfl⟩ := write_of_performUnit_readWord_ne h
  refine ⟨cells, haccess, rfl, by_contra fun hnone => h ?_⟩
  have hlisted : ∀ cell ∈ cellsOfUnit (chosenUnit inv c) cells, cell.1 ≠ a := fun cell hcell he =>
    hnone ⟨cell, List.mem_of_mem_filter hcell, he⟩
  rw [← readWord_writeCells_of_not_listed inv.bank hlisted s]
  exact readWord_of_memory (performUnit_write_memory who c s haccess)
    ((moved_performUnit who c inv s).params.trans (writeCells_params ..).symm) inv.bank a

/-- The requester whose turn performs a unit of a write may store to each address the write holds a cell at. -/
theorem PerformsUnitOf.mayStore {p : Params} {q q₀ : Requester} {inv : Invocation} {cells : List WordCell} {cell : WordCell}
    (h : PerformsUnitOf p q q₀ inv) (haccess : inv.access = .write cells) (hcell : cell ∈ cells) :
    q.mayStore inv.bank cell.1 = true := by
  cases h with
  | inFlight hflight => simpa [Requester.mayStore, hflight, haccess] using ⟨_, hcell⟩
  | memRead => cases haccess
  | memWrite hidle hprogram hwords =>
    injection haccess with hcells
    have hrange := List.mem_range'_1.1 (List.of_mem_zip (hcells ▸ hcell)).1
    rw [length_of_evalWords hwords] at hrange
    simpa [Requester.mayStore, hidle, hprogram] using hrange

/-- Settles O38: only a unit of a write changes a word, and the write holds a cell there. -/
theorem wordsChangeOnlyByWrites : Obligations.WordsChangeOnlyByWrites := by
  intro s t b a h hne
  rcases step_cases s t h with ⟨_, rfl⟩ | ⟨who, hc, hturn, hmoved⟩
  · exact absurd rfl hne
  · obtain ⟨q, hq, _⟩ := chosen_canMove s who hc
    refine ⟨who, q, hc, hq, ?_⟩
    rcases takeTurn_cases (s := s.spendTurn) hq hturn with ⟨q₀, inv, hperf, rfl⟩ | ⟨hmem, _⟩
    · obtain ⟨cells, haccess, rfl, cell, hcell, rfl⟩ := mem_cells_of_performUnit_readWord_ne hne
      exact hperf.mayStore haccess hcell
    · exact absurd (readWord_of_memory (s := s) hmem hmoved.params b a) hne

/-! ### The end of a run (R161) -/

theorem ended_iff (s : State) : s.ended = true ↔ ∀ q ∈ s.requesters, q.done = true := by
  simp [State.ended]

/-- A well-formed requester is done exactly when it cannot move: a faulted one has nothing in flight. -/
theorem done_iff_not_canMove {p : Params} {q : Requester} (h : q.wf p = true) : q.done = true ↔ q.canMove = false := by
  cases hfault : q.fault with
  | none => cases hflight : q.inFlight <;> simp [Requester.done, Requester.canMove, hfault, hflight]
  | some cause =>
    have hidle : q.inFlight = none := by simpa [Requester.wf, hfault] using h
    simp [Requester.done, Requester.canMove, hfault, hidle]

theorem ended_iff_chosen_eq_none {s : State} (hs : s.wf = true) : s.ended = true ↔ s.chosen = none := by
  obtain ⟨_, _, hwf⟩ := (state_wf_iff s).1 hs
  rw [ended_iff, chosen_eq_none, State.runnable, movable_eq_nil]
  exact forall₂_congr fun q hq => done_iff_not_canMove (hwf q hq)

theorem step_of_chosen_eq_none {s : State} (h : s.chosen = none) : step s = .next s := by
  simp [step, h]

/-- Settles O52: a well-formed requester is done when it cannot move, and the turn goes to nobody when none can. -/
theorem endedRunsStayAsTheyAre : Obligations.EndedRunsStayAsTheyAre := fun _ hs =>
  ⟨ended_iff_chosen_eq_none hs, fun hend => step_of_chosen_eq_none ((ended_iff_chosen_eq_none hs).1 hend)⟩

/-! ### The program ahead of a requester only gets shorter (R53, R119) -/

/-- A request, performed or refused, leaves the program as it is. -/
theorem program_suffix_of_request {who c : Nat} {valid : Prop} [Decidable valid] {inv : Invocation} {cause : Cause}
    {s : State} {q : Requester} (hq : s.requesters[who]? = some q) :
    ∃ q', (if valid then performUnit who c inv s else s.takeFailure who cause).requesters[who]? = some q' ∧
      q'.program <:+ q.program := by
  split
  · obtain ⟨q', hq', hprogram, _⟩ := performUnit_requester c inv hq
    exact ⟨q', hq', hprogram ▸ List.suffix_rfl⟩
  · exact ⟨q.fail cause, modified_requester _ hq, List.suffix_rfl⟩

/-- A line leaves of the program what stands behind it, or less when it skips. -/
theorem program_suffix_of_runLine {who c : Nat} {names : List (Name × Value)} {line : Line} {s t : State} {q : Requester}
    (hq : s.requesters[who]? = some q) (h : runLine who c names q.program line s = .next t) :
    ∃ q', t.requesters[who]? = some q' ∧ q'.program <:+ q.program := by
  have hissue : ∀ {d i}, issue who d i s = .next t → ∃ q', t.requesters[who]? = some q' ∧ q'.program <:+ q.program := by
    intro d i h
    rw [issue_eq_answered] at h
    injection h with h
    subst h
    refine ⟨(q.await d).answered (responseOf i) (boundValue i), by simp [hq], ?_⟩
    rw [answered_program]
    exact List.suffix_rfl
  cases line with
  | command cw d => exact hissue h
  | enc k v d =>
    simp only [runLine] at h
    split at h
    · exact hissue h
    · cases h
  | dec k len w0 w1 d =>
    simp only [runLine] at h
    split at h
    · exact hissue h
    · cases h
    · cases h
  | decSeq k x d =>
    simp only [runLine] at h
    split at h
    · exact hissue h
    · cases h
  | memRead b a n d =>
    injection h with h
    subst h
    exact program_suffix_of_request (q := q.await d) (modified_requester (·.await d) hq)
  | memWrite b a os =>
    simp only [runLine] at h
    split at h
    · injection h with h
      subst h
      exact program_suffix_of_request hq
    · cases h
  | skipIfZero o n =>
    simp only [runLine] at h
    split at h
    · injection h with h
      subst h
      split
      · exact ⟨_, modified_requester _ hq, List.drop_suffix n _⟩
      · exact ⟨q, hq, List.suffix_rfl⟩
    · cases h

/-! ### The work a requester has left (R160) -/

/-- The work of what a requester has in flight and of its program, whether or not it is faulted. -/
def Requester.workAhead (q : Requester) : Nat := unitsPending q.inFlight + (q.program.map Line.work).sum

theorem work_le_workAhead (q : Requester) : q.work ≤ q.workAhead := by
  unfold Requester.work
  split
  · exact Nat.zero_le _
  · exact le_refl _

theorem work_eq_workAhead {q : Requester} (h : q.fault = none) : q.work = q.workAhead := by
  simp [Requester.work, Requester.workAhead, h]

theorem workAhead_of_line {q : Requester} {line : Line} {rest : List Line} (hidle : q.inFlight = none)
    (hprogram : q.program = line :: rest) : q.workAhead = line.work + (rest.map Line.work).sum := by
  simp [Requester.workAhead, unitsPending, hidle, hprogram]

theorem workAhead_withInFlight (q : Requester) (inv : Invocation) :
    (q.withInFlight inv).workAhead = inv.pending.length + (q.program.map Line.work).sum := rfl

theorem one_le_work_line (line : Line) : 1 ≤ line.work := by
  cases line <;> simp [Line.work]

/-- A request has at most as many units as words. -/
theorem length_unitsOf_le (p : Params) (b : Bank) (a : Nat) {n : Nat} (hn : 1 ≤ n) : (unitsOf p b a n).length ≤ n := by
  obtain ⟨hflat, _, hnonempty⟩ := unitsPartitionTheRequest p b a n hn
  calc (unitsOf p b a n).length
      ≤ ((unitsOf p b a n).map List.length).sum := by
        rw [← List.length_map (f := List.length)]
        refine List.length_le_sum_of_one_le _ fun k hk => ?_
        obtain ⟨u, hu, rfl⟩ := List.mem_map.1 hk
        exact List.length_pos_iff.2 (hnonempty u hu)
    _ = n := by rw [← List.length_flatten, hflat, List.length_range']

/-- The invocation a turn performs a unit of is part of the work ahead: in flight, or bounded by its line. -/
theorem PerformsUnitOf.workAhead_le {p : Params} {q q₀ : Requester} {inv : Invocation} (h : PerformsUnitOf p q q₀ inv) :
    (q₀.withInFlight inv).workAhead ≤ q.workAhead := by
  rw [workAhead_withInFlight]
  cases h with
  | inFlight hflight => simp [Requester.workAhead, unitsPending, hflight]
  | @memRead b a n d rest hidle hprogram hvalid =>
    obtain ⟨hn, _⟩ := (validRequest_iff ..).1 hvalid
    have hunits := length_unitsOf_le p b a hn
    rw [workAhead_of_line hidle hprogram, Line.work, await_program, withProgram_program]
    dsimp only
    omega
  | @memWrite b a os ws rest hidle hprogram hwords hvalid =>
    obtain ⟨hn, _⟩ := (validRequest_iff ..).1 hvalid
    have hunits := length_unitsOf_le p b a hn
    rw [workAhead_of_line hidle hprogram, Line.work, ← length_of_evalWords hwords, withProgram_program]
    dsimp only
    omega

theorem pending_ne_nil_of_wf {p : Params} {inv : Invocation} (h : inv.wf p = true) : inv.pending ≠ [] := by
  cases haccess : inv.access with
  | read got =>
    obtain ⟨hunits, _⟩ := (invocation_wf_read_iff p haccess).1 h
    exact hunits.ne_nil
  | write cells =>
    obtain ⟨hunits, _⟩ := (invocation_wf_write_iff p haccess).1 h
    exact hunits.ne_nil

/-- A unit performed is one less to perform. -/
theorem workAhead_lt_of_performUnit {who c : Nat} {s : State} {q : Requester} {inv : Invocation}
    (hq : s.requesters[who]? = some q) (hne : inv.pending ≠ []) :
    ∃ q', (performUnit who c inv s).requesters[who]? = some q' ∧ q'.workAhead < (q.withInFlight inv).workAhead := by
  obtain ⟨q', hq', hprogram, hleft⟩ := performUnit_requester c inv hq
  refine ⟨q', hq', ?_⟩
  rw [workAhead_withInFlight, Requester.workAhead, hprogram]
  have hlength := unitsLeft_length inv c hne
  cases hflight : q'.inFlight with
  | none =>
    simp only [unitsPending]
    omega
  | some inv' =>
    obtain ⟨_, hpending, _⟩ := hleft inv' hflight
    simp only [unitsPending, hpending]
    omega

/-- A turn that leaves the bank alone runs a line, which is one less to run. -/
theorem workAhead_lt_of_leavesBank {who c : Nat} {s t : State} {q : Requester} (hq : s.requesters[who]? = some q)
    (hmove : q.canMove = true) (hidle : q.inFlight = none) (h : takeTurn who c s = .next t) (hleaves : LeavesBank who q s t) :
    ∃ q', t.requesters[who]? = some q' ∧ q'.workAhead < q.workAhead := by
  obtain ⟨_, q', hq', hidle', _⟩ := hleaves
  refine ⟨q', hq', ?_⟩
  cases hprogram : q.program with
  | nil => simp [Requester.canMove, hidle, hprogram] at hmove
  | cons line rest =>
    rw [takeTurn_of_line c hq hidle hprogram] at h
    obtain ⟨q'', hq'', hsuffix⟩ := program_suffix_of_runLine (q := q.withProgram rest) (modified_requester _ hq) h
    obtain rfl := Option.some.inj (hq''.symm.trans hq')
    have hsum := (hsuffix.sublist.map Line.work).sum_le_sum fun _ _ => Nat.zero_le _
    have hline := one_le_work_line line
    rw [workAhead_of_line hidle hprogram, Requester.workAhead, hidle']
    simp only [unitsPending, withProgram_program] at hsum ⊢
    omega

/-- A turn of a requester that can move leaves less work ahead of it. -/
theorem workAhead_lt_of_takeTurn {who c : Nat} {s t : State} {q : Requester} (hq : s.requesters[who]? = some q)
    (hwf : q.wf s.params = true) (hmove : q.canMove = true) (h : takeTurn who c s = .next t) :
    ∃ q', t.requesters[who]? = some q' ∧ q'.workAhead < q.workAhead := by
  have hunit : ∀ {q₀ inv}, PerformsUnitOf s.params q q₀ inv →
      ∃ q', t.requesters[who]? = some q' ∧ q'.workAhead < q.workAhead := fun {q₀ inv} hperf => by
    obtain rfl := Host.Outcome.next.inj (h.symm.trans (takeTurn_of_performs c hq hperf))
    obtain ⟨q', hq', hlt⟩ :=
      workAhead_lt_of_performUnit (c := c) (modified_requester (fun _ => q₀) hq) (pending_ne_nil_of_wf (hperf.inv_wf hwf))
    exact ⟨q', hq', hlt.trans_le hperf.workAhead_le⟩
  cases hflight : q.inFlight with
  | some inv => exact hunit (.inFlight hflight)
  | none =>
    rcases takeTurn_cases hq h with ⟨q₀, inv, hperf, _⟩ | hleaves
    · exact hunit hperf
    · exact workAhead_lt_of_leavesBank hq hmove hflight h hleaves

/-! ### The work a run has left (R160) -/

/-- What one requester does leaves less work when it leaves less to that requester. -/
theorem Moved.work_lt {who : Nat} {s t : State} {q q' : Requester} (h : Moved who s t) (hq : s.requesters[who]? = some q)
    (hq' : t.requesters[who]? = some q') (hlt : q'.work < q.work) : t.work < s.work := by
  obtain ⟨⟨f, _, hreqs⟩, _⟩ := h
  obtain ⟨hwho, _⟩ := List.getElem?_eq_some_iff.1 hq
  obtain ⟨before, r, after, hsplit, rfl, hmodify⟩ := List.exists_of_modify f hwho
  obtain rfl : r = q := by simpa [hsplit] using hq
  obtain rfl : f r = q' := by simpa [hreqs, hmodify] using hq'
  simp only [State.work, hreqs, hmodify]
  simp only [hsplit, List.map_append, List.map_cons, List.sum_append, List.sum_cons]
  omega

/-- Settles O53: the run has not ended, so one requester takes its turn, and less work is ahead of it. -/
theorem everyStepLeavesLessWork : Obligations.EveryStepLeavesLessWork := by
  intro s t hs hrunning h
  rcases step_cases s t h with ⟨hc, _⟩ | ⟨who, hc, hturn, hmoved⟩
  · exact absurd ((ended_iff_chosen_eq_none hs).2 hc) (ne_true_of_eq_false hrunning)
  · obtain ⟨q, hq, hmove⟩ := chosen_canMove s who hc
    obtain ⟨q', hq', hlt⟩ :=
      workAhead_lt_of_takeTurn (s := s.spendTurn) hq (requester_wf_of_state_wf hs hq) hmove hturn
    refine hmoved.work_lt hq hq' ?_
    calc q'.work
        ≤ q'.workAhead := work_le_workAhead q'
      _ < q.workAhead := hlt
      _ = q.work := (work_eq_workAhead (fault_of_canMove hmove)).symm

/-! ### The end of every run (R160, R161) -/

theorem run_of_ended {s : State} (hs : s.wf = true) (hend : s.ended = true) (n : Nat) :
    Host.Core.run Sys2Proof.core n s = .next s := by
  obtain ⟨_, hstay⟩ := endedRunsStayAsTheyAre s hs
  induction n with
  | zero => rfl
  | succ n ih => exact (run_succ n (hstay hend)).trans ih

/-- As many steps as bound the work end the run. -/
theorem run_ends_of_work_le {s : State} {n : Nat} (hs : s.wf = true) (hwork : s.work ≤ n) :
    ∃ t, Host.Core.run Sys2Proof.core n s = .next t ∧ t.ended = true ∧ t.wf = true := by
  induction n generalizing s with
  | zero =>
    refine ⟨s, rfl, by_contra fun hrunning => ?_, hs⟩
    obtain ⟨t, ht, _⟩ := wellFormedStatesStepToWellFormedStates s hs
    have hless := everyStepLeavesLessWork s t hs (eq_false_of_ne_true hrunning) ht
    omega
  | succ n ih =>
    obtain ⟨t, ht, htwf⟩ := wellFormedStatesStepToWellFormedStates s hs
    cases hend : s.ended with
    | true => exact ⟨s, run_of_ended hs hend _, hend, hs⟩
    | false =>
      have hless := everyStepLeavesLessWork s t hs hend ht
      rw [run_succ n ht]
      exact ih htwf (by omega)

/-- Settles O54: the work of a run is a bound on its steps. -/
theorem everyRunEnds : Obligations.EveryRunEnds := fun _ hs => run_ends_of_work_le hs (le_refl _)

end Sys2Proof.Machine
end
